-- ==== Sys2Proof/Word.lean ====
section
/-! DEFINITION. The number types of the spec's notation (R11): `u8`, `u32` and the four-bit fields of a token byte.
Lengths, pointers, sizes and offsets are natural numbers without a width (R11), so they are `Nat`. -/

namespace Sys2Proof

/-- `u8` (R11): a memory cell, a token byte, a delta byte. -/
abbrev Byte := BitVec 8

/-- A four-bit field of a token byte (R86). -/
abbrev Nibble := BitVec 4

/-- `u32` (R11): a frame dimension. -/
abbrev U32 := BitVec 32

end Sys2Proof
end

