-- ==== Sys2Proof/Config.lean ====
section
/-! DEFINITION. What an implementation fixes and the free values: the token formats (R10, R84), the initial reference
byte (R231), and the opaque constants behind everything the spec leaves open. -/

namespace Sys2Proof

/-- One element of a compressed stream, apart from its byte format (R84). -/
inductive Token where
  /-- A run of bytes carried in the stream. -/
  | literal (bytes : List Byte)
  /-- Copy `length` bytes that start `offset` bytes before the write position. R84 has `length >= 1` in every stream: the bound is
  `Token.wellFormed`, and no parser yields a token without it. -/
  | backRef (offset length : Nat)
  deriving DecidableEq, Repr

/-- What a parser makes of a whole message (R84): the tokens read before the message ended, and whether it ended in the
middle of a token, so that `TruncatedInput` is raised after the last token of the list. -/
structure TokenStream where
  tokens : List Token
  truncated : Bool
  deriving DecidableEq, Repr, Inhabited

/-- The parameter TOKEN_FORMAT (R10, R84): the default byte format SEQ16 (R85 to R93), whose tokens are the operations
LIT, LITX, REF, REFX and END, or another format, known by a number. -/
inductive TokenFormat where
  | seq16
  | other (number : Nat)
  deriving DecidableEq, Repr

/-- Free token lists, one for each format number and message: what `parseOther` makes the parsers of the other formats from (log
entry 10). -/
opaque Config.freeTokens : Nat → List Byte → TokenStream

/-- The token format of the state after reset: the spec's default (R10, decision D3; log entry 10). -/
def Config.tokenFormat : TokenFormat := .seq16

/-- REF_INIT (R10, R231): every byte of the reference frame at session start. -/
def Config.refInit : Byte := 0x00

/-- The value of ACK_SENTINEL (R10, R98) in the state after reset: the spec gives none, and nothing here does (log entry 2). -/
opaque Config.ackSentinel : Byte

/-- Free natural numbers, one for each draw: what a register holds whose value the spec leaves unspecified (log entry 4). -/
opaque Config.freeNat : Nat → Nat

/-- Free truth values, one for each draw (log entry 4). -/
opaque Config.freeBool : Nat → Bool

end Sys2Proof
end

