-- ==== Sys2Proof/Syntax.lean ====
section
/-! DEFINITION. The sixteen operations of the block (R5, opcode_table.json) as one inductive, and the data they carry. -/

namespace Sys2Proof

/-- The session configuration (R8, R21): `{width, height, delta_enabled, compression_enabled}`. -/
structure SessionConfig where
  w : U32
  h : U32
  delta : Bool
  compression : Bool
  deriving DecidableEq, Repr

/-- The error kinds (R190). The first six are the source's; the seventh is the spec's own. -/
inductive ErrorKind where
  | malformedStream
  | truncatedInput
  | sizeMismatch
  | protocolViolation
  | channelClosed
  | timeout
  | configRefused
  deriving DecidableEq, Repr

/-- One constructor for each row of opcode_table.json. The operands are the fields by which a row is selected; bytes that
follow a token byte in the message (literals, offset, extension) are read from `MSG` by the operation itself, as its
pseudocode does. -/
inductive Instr where
  /-- `LIT` (R113): literal run of `ll` bytes; `mm` belongs to the back-reference part of the same sequence. -/
  | lit (ll mm : Nibble)
  /-- `LITX` (R114): literal run of 15 plus extension bytes. -/
  | litx (mm : Nibble)
  /-- `REF` (R115): back-reference of `mm + 4` bytes. -/
  | ref (mm : Nibble)
  /-- `REFX` (R116): back-reference of 15 plus extension plus 4 bytes. -/
  | refx
  /-- `END` (R117): the message is exhausted at a legal point. -/
  | endStream
  /-- `DECODE.C` (R112): replay the token stream. -/
  | decodeC
  /-- `DECODE.P` (R111): pass the message through. -/
  | decodeP
  /-- `RECON.D` (R145): delta reconstruct. -/
  | reconD
  /-- `RECON.R` (R146): replace the frame. -/
  | reconR
  /-- `ADDB i` (R143). -/
  | addb (i : Nat)
  /-- `SUBB i` (R144). -/
  | subb (i : Nat)
  /-- `START` (R162, R163), triggered by `SessionStart(cfg)`. -/
  | start (cfg : SessionConfig)
  /-- `RECV` (R170), triggered by `Message(bytes)`. -/
  | recv (bytes : List Byte)
  /-- `PRESENT` (R172). -/
  | present
  /-- `ACK` (R173). -/
  | ack
  /-- `ABORT kind` (R174). -/
  | abort (kind : ErrorKind)
  deriving DecidableEq, Repr

end Sys2Proof
end

