-- ==== Sys2Proof/Decode.lean ====
section
/-! DEFINITION. The decoder: from the selecting bits of opcode_table.json to an instruction (total: R96 reserves nothing), the
encoder after it, the parser and the assembler of whole SEQ16 streams (R85 to R93, R100), and the reading of a table word. -/

namespace Sys2Proof

/-! ### Fields of the token byte, offset and length assembly -/

/-- `LL`, bits 7:4 of the token byte (R86). -/
def tokenLL (t : Byte) : Nibble := t.extractLsb' 4 4

/-- `MM`, bits 3:0 of the token byte (R86). -/
def tokenMM (t : Byte) : Nibble := t.extractLsb' 0 4

/-- The token byte with the given fields (R86). -/
def tokenByte (ll mm : Nibble) : Byte := ll ++ mm

/-- The offset of a back-reference from its two bytes, low byte first (R52, R90). -/
def assembleOffset (lo hi : Byte) : Nat := lo.toNat ||| (hi.toNat <<< 8)

/-- The bias of the match length (R86, R91). -/
def matchBias : Nat := 4

/-- The sign bit of Frame byte `i` inside its bitmap byte: bit `i % 8`, least significant first (R51, R142). -/
def signOf (bitmapByte : Byte) (i : Nat) : Bool := (bitmapByte >>> (i % 8)) &&& 1 = 1

/-! ### One operation inside a stage -/

/-- The operations that run inside a stage: the tokens of the compressed stream and the per-byte delta (R5). -/
inductive MicroOp where
  | lit (ll mm : Nibble)
  | litx (mm : Nibble)
  | ref (mm : Nibble)
  | refx
  | endStream
  | addb (i : Nat)
  | subb (i : Nat)
  deriving DecidableEq, Repr

/-- The instruction a stage operation is. -/
def MicroOp.toInstr : MicroOp → Instr
  | .lit ll mm => .lit ll mm
  | .litx mm => .litx mm
  | .ref mm => .ref mm
  | .refx => .refx
  | .endStream => .endStream
  | .addb i => .addb i
  | .subb i => .subb i

/-- The first part of a sequence, selected by `LL` of its token byte (R93). -/
def decodeLiteralPart (t : Byte) : MicroOp :=
  if tokenLL t = 15 then .litx (tokenMM t) else .lit (tokenLL t) (tokenMM t)

/-- The second part of a sequence, selected by `MM` of its token byte (R93). -/
def decodeBackRefPart (t : Byte) : MicroOp :=
  if tokenMM t = 15 then .refx else .ref (tokenMM t)

/-- The per-byte operation selected by a sign bit: 0 adds, 1 subtracts (R97). -/
def decodeSign (sign : Bool) (i : Nat) : MicroOp :=
  if sign then .subb i else .addb i

/-- The operation at a point of a SEQ16 stream: `latched` is the token byte whose literals have just been read (none at the
start of a sequence), `rest` the message from there on. With no byte left the stream ends (R89, R117). Every byte
value is legal (R96), so nothing is rejected here; a message that ends inside a token is the operation's own
`TruncatedInput`. -/
def decodeAt (latched : Option Byte) (rest : List Byte) : MicroOp :=
  match rest, latched with
  | [], _ => .endStream
  | t :: _, none => decodeLiteralPart t
  | _ :: _, some t => decodeBackRefPart t

/-! ### Every row of the table -/

/-- What selects a row of opcode_table.json, by the row's "format" and "encoding". -/
inductive Selector where
  /-- SEQ16_TOKEN, first part of a sequence: its token byte. -/
  | literalPart (t : Byte)
  /-- SEQ16_TOKEN, second part of a sequence: the same token byte. -/
  | backRefPart (t : Byte)
  /-- SEQ16_BOUNDARY: the message is exhausted. -/
  | boundary
  /-- MODE in the state `Decompressing`: the mode bits `cd` (R81). -/
  | decodeMode (c d : Bool)
  /-- MODE in the state `Reconstructing`: the mode bits `cd` (R81). -/
  | reconMode (c d : Bool)
  /-- SIGNBIT of Frame byte `i` (R97). -/
  | signBit (sign : Bool) (i : Nat)
  /-- EVENT `SessionStart(cfg)`. -/
  | sessionStart (cfg : SessionConfig)
  /-- EVENT `Message(bytes)` in the state `AwaitingFrame`. -/
  | message (bytes : List Byte)
  /-- Internal, `Presenting` with `presented = false`. -/
  | presenting
  /-- Internal, `Presenting` with `presented = true`. -/
  | presented
  /-- An error of the given kind. -/
  | error (kind : ErrorKind)
  deriving DecidableEq, Repr

/-- The decoder of all sixteen rows. -/
def decode : Selector → Instr
  | .literalPart t => (decodeLiteralPart t).toInstr
  | .backRefPart t => (decodeBackRefPart t).toInstr
  | .boundary => .endStream
  | .decodeMode c _ => if c then .decodeC else .decodeP
  | .reconMode _ d => if d then .reconD else .reconR
  | .signBit sign i => (decodeSign sign i).toInstr
  | .sessionStart cfg => .start cfg
  | .message bytes => .recv bytes
  | .presenting => .present
  | .presented => .ack
  | .error kind => .abort kind

/-- The encoder: one selector of each instruction, with 0 in the bits its row leaves to another part of the encoding. -/
def encode : Instr → Selector
  | .lit ll mm => .literalPart (tokenByte ll mm)
  | .litx mm => .literalPart (tokenByte 15 mm)
  | .ref mm => .backRefPart (tokenByte 0 mm)
  | .refx => .backRefPart (tokenByte 0 15)
  | .endStream => .boundary
  | .decodeC => .decodeMode true false
  | .decodeP => .decodeMode false false
  | .reconD => .reconMode false true
  | .reconR => .reconMode false false
  | .addb i => .signBit false i
  | .subb i => .signBit true i
  | .start cfg => .sessionStart cfg
  | .recv bytes => .message bytes
  | .present => .presenting
  | .ack => .presented
  | .abort kind => .error kind

/-! ### Whole SEQ16 streams -/

/-- Sum extension bytes onto `acc` until the first that is not `0xFF` (R87); none if the bytes end first. -/
def sumExtension (acc : Nat) : List Byte → Option (Nat × List Byte)
  | [] => none
  | e :: rest => if e = 0xFF then sumExtension (acc + 255) rest else some (acc + e.toNat, rest)

/-- A length field and its extension (R87, R91 without the bias). -/
def takeLength (field : Nibble) (bytes : List Byte) : Option (Nat × List Byte) :=
  if field = 15 then sumExtension 15 bytes else some (field.toNat, bytes)

/-- The SEQ16 parser (R85 to R93) with at most `fuel` sequences; every sequence takes at least its token byte, so the
message's length is fuel enough. -/
def parseSequences : Nat → List Byte → TokenStream
  | 0, _ => ⟨[], false⟩
  | _ + 1, [] => ⟨[], false⟩
  | fuel + 1, t :: afterToken =>
    match takeLength (tokenLL t) afterToken with
    | none => ⟨[], true⟩
    | some (litlen, afterExt) =>
      if afterExt.length < litlen then ⟨[], true⟩
      else
        let literal := Token.literal (afterExt.take litlen)
        match afterExt.drop litlen with
        | [] => ⟨[literal], false⟩
        | [_] => ⟨[literal], true⟩
        | lo :: hi :: afterOffset =>
          match takeLength (tokenMM t) afterOffset with
          | none => ⟨[literal], true⟩
          | some (m, rest) =>
            let tail := parseSequences fuel rest
            ⟨literal :: .backRef (assembleOffset lo hi) (m + matchBias) :: tail.tokens, tail.truncated⟩

/-- The SEQ16 parser as a function of the message (R84). -/
def parseSeq16 (message : List Byte) : TokenStream := parseSequences message.length message

/-! ### Other token formats -/

/-- R84: a back-reference is "a request to copy `length >= 1` bytes". -/
def Token.wellFormed : Token → Bool
  | .literal _ => true
  | .backRef _ length => 1 ≤ length

/-- Every token of the stream is one that R84 allows. -/
def TokenStream.wellFormed (stream : TokenStream) : Bool := stream.tokens.all Token.wellFormed

/-- The same token with one byte more to copy: every token that R84 allows is the image of exactly one token. -/
def Token.lengthen : Token → Token
  | .literal bytes => .literal bytes
  | .backRef offset length => .backRef offset (length + 1)

/-- The parser of another format, known by a number (R84: "A different `TOKEN_FORMAT` must supply a total function"): of what it
yields nothing is known but that R84 allows it, and every stream that R84 allows is possible (log entry 10). -/
def parseOther (format : Nat) (message : List Byte) : TokenStream :=
  let free := Config.freeTokens format message
  ⟨free.tokens.map Token.lengthen, free.truncated⟩

/-! ### The SEQ16 assembler -/

/-- One SEQ16 sequence that has both parts (R85). -/
structure Sequence where
  literals : List Byte
  offset : Nat
  length : Nat
  deriving DecidableEq, Repr

/-- A sequence that SEQ16 can express: a 16-bit offset (0 is encodable, R90) and a length of at least 4 (R91). -/
def Sequence.wellFormed (q : Sequence) : Bool := q.offset < 65536 && matchBias ≤ q.length

/-- The abstract tokens of a sequence (R85). -/
def Sequence.tokens (q : Sequence) : List Token := [.literal q.literals, .backRef q.offset q.length]

/-- The four-bit field of a length (R86). -/
def lengthField (n : Nat) : Nibble := if n < 15 then BitVec.ofNat 4 n else 15

/-- The extension bytes of a length (R87): none below 15. -/
def lengthExtension (n : Nat) : List Byte :=
  if n < 15 then [] else List.replicate ((n - 15) / 255) 0xFF ++ [BitVec.ofNat 8 ((n - 15) % 255)]

/-- The bytes of a sequence, in the order of R85. -/
def encodeSequence (q : Sequence) : List Byte :=
  tokenByte (lengthField q.literals.length) (lengthField (q.length - matchBias)) ::
    (lengthExtension q.literals.length ++ q.literals ++
      [BitVec.ofNat 8 q.offset, BitVec.ofNat 8 (q.offset >>> 8)] ++ lengthExtension (q.length - matchBias))

/-- The bytes of a last sequence that stops after its literals (R89); its `MM` field is ignored, and 0 here. -/
def encodeTail (literals : List Byte) : List Byte :=
  tokenByte (lengthField literals.length) 0 :: (lengthExtension literals.length ++ literals)

/-- The assembler (R100): sequences, then a trailing literal run if there is one. -/
def encodeStream (sequences : List Sequence) (tail : Option (List Byte)) : List Byte :=
  sequences.flatMap encodeSequence ++ (match tail with | none => [] | some literals => encodeTail literals)

/-- The tokens that `encodeStream` assembles. -/
def streamTokens (sequences : List Sequence) (tail : Option (List Byte)) : List Token :=
  sequences.flatMap Sequence.tokens ++ (match tail with | none => [] | some literals => [.literal literals])

/-- The pseudo-operation `FILL b, n` (R101). -/
def fillTokens (b : Byte) (n : Nat) : List Token := [.literal [b], .backRef 1 (n - 1)]

/-! ### Words of opcode_table.json

Only the SEQ16_TOKEN rows have message bytes; the other rows are selected by mode flags, sign bits and events. A table
word is therefore read as the bytes of a message (log entry 7). -/

/-- The bytes of a table word, the first at the lowest address, followed by bytes of zeros up to the longest operation the
word can begin: a word of `k` bytes has at most `k - 1` extension bytes, which with 15 and one byte of zero to end them
make a literal run of at most 15 + 255 * (k - 1) bytes. -/
def tableBytes (nbits w : Nat) : List Byte :=
  let k := (nbits + 7) / 8
  (List.range k).map (fun j => BitVec.ofNat 8 (w >>> (8 * j))) ++
    (if k = 0 then [] else List.replicate (18 + 255 * (k - 1)) 0)

/-- The token byte whose back-reference part a table word stands for, if it does: a literal run that is empty, and either
`MM = 15` (the mask of row REFX) or more than the token byte in the word (row REF). -/
def tableLatched (nbits w : Nat) : Option Byte :=
  let t : Byte := BitVec.ofNat 8 w
  if 0 < nbits ∧ tokenLL t = 0 ∧ (tokenMM t = 15 ∨ 8 < nbits) then some t else none

/-- The address at which the operation of a table word starts: after its token byte, if that is already latched. -/
def tableStart (nbits w : Nat) : Nat := if (tableLatched nbits w).isSome then 1 else 0

/-- The instruction that the decoder reads from a table word. -/
def decodeTableWord (nbits w : Nat) : Option Instr :=
  some (decodeAt (tableLatched nbits w) ((tableBytes nbits w).drop (tableStart nbits w))).toInstr

end Sys2Proof
end

