-- ==== Sys2Proof/Machine/State.lean ====
section
/-! DEFINITION. The machine's state (10_state.md), its stops, and its value after hardware reset (R39). -/

namespace Sys2Proof.Machine

/-- `status` (R23). -/
inductive Status where
  | noSession
  | active
  | terminated (kind : ErrorKind)
  deriving DecidableEq, Repr

/-- `fsm` (R24, R160): "No other states exist". -/
inductive Fsm where
  | awaitingFrame
  | decompressing
  | reconstructing
  | presenting
  deriving DecidableEq, Repr

/-- Where the sequencer stands inside the stage in progress (the MODEL's own field, log entry 8; R28 and the loops of R112
and R145). -/
inductive SeqPhase where
  /-- Between the steps of the table of R161. -/
  | idle
  /-- In `DECODE.C`, at the top of the loop of R112. -/
  | token
  /-- In `DECODE.C`, after the literals of the sequence with token byte `t`. -/
  | backRef (t : Byte)
  /-- In `DECODE.C`, after `END`: the exact-size check of R118 is next. -/
  | check
  /-- In the loop of `RECON.D`. -/
  | delta
  deriving DecidableEq, Repr

/-- Output events (R16, R36). -/
inductive OutEvent where
  | ack (byte : Byte)
  | present (w h : U32) (bytes : List Byte)
  | fail (kind : ErrorKind)
  deriving DecidableEq, Repr

/-- Input events (R37). -/
inductive InEvent where
  | sessionStart (cfg : SessionConfig)
  | message (bytes : List Byte)
  | channelClosed
  | timeoutExpired
  deriving DecidableEq, Repr

/-- What the environment does at one point where the block can observe an event (log entry 6). -/
inductive Slot where
  /-- No event: the block takes its internal step. -/
  | quiet
  | event (e : InEvent)
  deriving DecidableEq, Repr

/-- The implementation parameters that R10 leaves open and R38 makes arguments of the step: no step writes them (log
entry 2). -/
structure Params where
  /-- TOKEN_FORMAT (R10, R84), plain data: the parser behind a number is `parseOther`. -/
  tokenFormat : TokenFormat
  ackSentinel : Byte
  maxDecodedBytes : Nat
  /-- `none` is the spec's default, unbounded (D13). -/
  maxMessageBytes : Option Nat
  deriving DecidableEq, Repr

/-- The three disjoint memories (R33). -/
inductive Space where
  | msg
  | dec
  | ref
  deriving DecidableEq, Repr

/-- A memory: address and byte pairs, addresses strictly rising, none equal to what an unlisted address reads as. -/
abbrev Memory := List Host.Cell

/-- The state of the block and of the model's environment. -/
structure State where
  /-- Implementation parameters (R10, R38). -/
  params : Params
  /-- R23. -/
  status : Status
  /-- R24. -/
  fsm : Fsm
  /-- R40. -/
  presented : Bool
  /-- R21. -/
  cfg : SessionConfig
  /-- `N`, bytes in one Frame (R9, R22). -/
  n : Nat
  /-- `M`, bytes in one Sign Bitmap (R9, R22). -/
  m : Nat
  /-- `L`, expected decoded length (R9, R22). -/
  l : Nat
  /-- `C`, length of the current message (R27). -/
  c : Nat
  /-- Input pointer (R27). -/
  ip : Nat
  /-- Output pointer (R27). -/
  op : Nat
  /-- Byte index of the reconstruct loop (R27). -/
  i : Nat
  /-- Position inside the stage in progress (log entry 8). -/
  seq : SeqPhase
  /-- `MSG`, the inbound message (R30). -/
  msg : Memory
  /-- `DEC`, the decoded buffer (R31). -/
  dec : Memory
  /-- `REF`, the reference frame (R32, R165). -/
  ref : Memory
  /-- The output trace, oldest event first (R36). -/
  trace : List OutEvent
  /-- The environment's schedule (R37, R38; log entry 6). -/
  inputs : List Slot
  /-- How many free values have been drawn (log entry 4). -/
  draws : Nat
  deriving DecidableEq, Repr

/-- Why the machine can stop. Both are SAFE: the hardware has no such stop, and no state that meets `Inv` reaches one (R70). -/
inductive Fault where
  /-- An access to an address outside its space, raised by `readByte` and `writeByte` (R70: "an out-of-range access
  therefore has no defined behaviour because it cannot occur"). Safe. -/
  | outsideSpace (space : Space) (address : Nat)
  /-- A read of a byte that has no value, raised by `readByte` (R39: "a read is a modelling fault"; U4). Safe. -/
  | noValue (space : Space) (address : Nat)
  deriving DecidableEq, Repr

/-- Why an instruction can be refused. -/
inductive Refusal where
  /-- An instruction without a meaning; no arm of `exec` answers it. Safe. -/
  | notModelled (mnemonic : String)
  deriving DecidableEq, Repr

/-- The outcome of a step of this machine. -/
abbrev Outcome := Host.Outcome State Fault Refusal

/-- Hardware reset (R39, R230): `status` is NoSession and the output trace is empty. Every other value is the model's own
choice (log entries 1, 2, 4, 6, 8): the spec gives "no value". -/
def State.reset : State where
  params :=
    { tokenFormat := Config.tokenFormat, ackSentinel := Config.ackSentinel, maxDecodedBytes := 4294967296,
      maxMessageBytes := none }
  status := .noSession
  fsm := .awaitingFrame
  presented := false
  cfg := { w := 0, h := 0, delta := false, compression := false }
  n := 0
  m := 0
  l := 0
  c := 0
  ip := 0
  op := 0
  i := 0
  seq := .idle
  msg := []
  dec := []
  ref := []
  trace := []
  inputs := []
  draws := 0

end Sys2Proof.Machine
end

