-- ==== Sys2Proof/Machine/Ops.lean ====
section
/-! DEFINITION. The named operations over memory and registers (R14), the output trace (R16), and taking an error: the
block's one response to every error (R15, R200). -/

namespace Sys2Proof.Machine

/-! ### Memory as plain data -/

/-- The byte listed at an address, if there is one. -/
def Memory.lookup : Memory → Nat → Option Byte
  | [], _ => none
  | (b, v) :: rest, a => if a = b then some v else Memory.lookup rest a

/-- The byte at an address: the listed one, else what an unlisted address reads as. -/
def Memory.read (unlisted : Option Byte) (mem : Memory) (a : Nat) : Option Byte :=
  match Memory.lookup mem a with
  | some v => some v
  | none => unlisted

/-- List a byte at an address, keeping the addresses rising. -/
def Memory.insert : Memory → Nat → Byte → Memory
  | [], a, v => [(a, v)]
  | (b, w) :: rest, a, v =>
    if a < b then (a, v) :: (b, w) :: rest
    else if a = b then (a, v) :: rest
    else (b, w) :: Memory.insert rest a v

/-- Remove every entry of an address. -/
def Memory.erase : Memory → Nat → Memory
  | [], _ => []
  | (b, w) :: rest, a => if a = b then Memory.erase rest a else (b, w) :: Memory.erase rest a

/-- Write a byte; writing what an unlisted address reads as removes the entry. -/
def Memory.write (unlisted : Option Byte) (mem : Memory) (a : Nat) (v : Byte) : Memory :=
  if unlisted = some v then Memory.erase mem a else Memory.insert mem a v

/-- The memory that holds the given bytes from an address on. -/
def Memory.ofBytes (start : Nat) : List Byte → Memory
  | [] => []
  | v :: rest => (start, v) :: Memory.ofBytes (start + 1) rest

/-- The canonical form: addresses strictly rising, no entry equal to what an unlisted address reads as. -/
abbrev Memory.wf (unlisted : Option Byte) (mem : Memory) : Prop :=
  mem.Pairwise (fun x y => x.1 < y.1) ∧ ∀ x ∈ mem, unlisted ≠ some x.2

/-! ### The three spaces -/

/-- What an unlisted address of a space reads as (log entry 3): in `REF` the byte of session start (R231), in `MSG` and
`DEC` no value (R39, U4). -/
def Space.unlisted : Space → Option Byte
  | .msg => none
  | .dec => none
  | .ref => some Config.refInit

/-- The memory behind a space (R33). -/
def State.mem (s : State) : Space → Memory
  | .msg => s.msg
  | .dec => s.dec
  | .ref => s.ref

/-- The number of bytes of a space (R33, R59). -/
def State.size (s : State) : Space → Nat
  | .msg => s.c
  | .dec => s.l
  | .ref => s.n

/-- Put a memory behind a space. -/
def State.setMem (s : State) (sp : Space) (mem : Memory) : State :=
  match sp with
  | .msg => { s with msg := mem }
  | .dec => { s with dec := mem }
  | .ref => { s with ref := mem }

/-- `S[a]` (R14). -/
def readByte (sp : Space) (a : Nat) (s : State) : Except Fault Byte :=
  if a < s.size sp then
    match Memory.read sp.unlisted (s.mem sp) a with
    | some v => .ok v
    | none => .error (.noValue sp a)
  else .error (.outsideSpace sp a)

/-- `S[a] <- v` (R14). -/
def writeByte (sp : Space) (a : Nat) (v : Byte) (s : State) : Except Fault State :=
  if a < s.size sp then .ok (s.setMem sp (Memory.write sp.unlisted (s.mem sp) a v))
  else .error (.outsideSpace sp a)

/-- `for k in k .. k + count - 1: dst[toBase + k] <- src[fromBase + k]`, ascending, one byte at a time, each read seeing the
earlier writes (R68, R111, R113, R115). -/
def copyRun (src dst : Space) (fromBase toBase : Nat) : Nat → Nat → State → Except Fault State
  | 0, _, s => .ok s
  | count + 1, k, s =>
    match readByte src (fromBase + k) s with
    | .error f => .error f
    | .ok v =>
      match writeByte dst (toBase + k) v s with
      | .error f => .error f
      | .ok s' => copyRun src dst fromBase toBase count (k + 1) s'

/-- Write a list of bytes from an address on. -/
def writeRun (dst : Space) : Nat → List Byte → State → Except Fault State
  | _, [], s => .ok s
  | a, v :: rest, s =>
    match writeByte dst a v s with
    | .error f => .error f
    | .ok s' => writeRun dst (a + 1) rest s'

/-- The `count` bytes of a space from an address on. -/
def readRun (src : Space) : Nat → Nat → State → Except Fault (List Byte)
  | 0, _, _ => .ok []
  | count + 1, a, s =>
    match readByte src a s with
    | .error f => .error f
    | .ok v =>
      match readRun src count (a + 1) s with
      | .error f => .error f
      | .ok rest => .ok (v :: rest)

/-! ### Output, errors -/

/-- `emit X` (R16): append an output event to the trace. -/
def State.emit (s : State) (e : OutEvent) : State := { s with trace := s.trace ++ [e] }

/-- TAKING AN ERROR (R200): `status <- Terminated(kind); emit Fail(kind)`. Nothing else is saved or changed ("State saved:
only `kind`, inside `status`"); the operation in progress ends (R15), so the sequencer stands idle (log entry 8). There is
no return (R202): the way on is a new `START`. -/
def State.takeError (s : State) (kind : ErrorKind) : State :=
  { s with status := .terminated kind, seq := .idle, trace := s.trace ++ [.fail kind] }

/-- What a part of an operation ends in: a value, a raised error with the state at that point (R15), or a model fault. -/
inductive Res (α : Type) where
  | ok (value : α) (s : State)
  | raise (kind : ErrorKind) (s : State)
  | fault (f : Fault)

/-- Go on with the value, unless an error was raised. -/
def Res.bind {α β : Type} (r : Res α) (next : α → State → Res β) : Res β :=
  match r with
  | .ok v s => next v s
  | .raise kind s => .raise kind s
  | .fault f => .fault f

/-- A memory operation as a part of an operation. -/
def Res.ofExcept (r : Except Fault State) : Res Unit :=
  match r with
  | .ok s => .ok () s
  | .error f => .fault f

/-- A read as a part of an operation. -/
def Res.ofRead {α : Type} (r : Except Fault α) (s : State) : Res α :=
  match r with
  | .ok v => .ok v s
  | .error f => .fault f

/-- The end of an operation: a raised error is taken (R15, R200). -/
def Res.finish (r : Res Unit) : Outcome :=
  match r with
  | .ok _ s => .next s
  | .raise kind s => .next (s.takeError kind)
  | .fault f => .fault f

/-! ### Free values -/

/-- A free natural number up to a bound: nothing but the bound is known of it (log entry 4). -/
def freeUpTo (bound draw : Nat) : Nat := min (Config.freeNat draw) bound

end Sys2Proof.Machine
end

