-- ==== Sys2Proof/Machine/Operands.lean ====
section
/-! DEFINITION. The operand forms: sizes of a configuration (R9), length extensions (R87, R91), offset (R90), literal run
(R88, R113, R114), back-reference copy (R115, R116), sign bit (R142), frame address (R54). -/

namespace Sys2Proof.Machine

/-! ### Sizes -/

/-- `N = W * H * 3`, over the naturals (R9). -/
def frameBytes (cfg : SessionConfig) : Nat := cfg.w.toNat * cfg.h.toNat * 3

/-- `ceil(n / 8)` (R9). -/
def bitmapBytes (n : Nat) : Nat := (n + 7) / 8

/-- `L = N + M` with delta enabled, else `N` (R9). -/
def decodedBytes (cfg : SessionConfig) : Nat :=
  if cfg.delta then frameBytes cfg + bitmapBytes (frameBytes cfg) else frameBytes cfg

/-- The address in a Frame of channel `ch` of the pixel in column `x` and row `y` (R54). -/
def pixelAddress (w x y ch : Nat) : Nat := 3 * (y * w + x) + ch

/-! ### Token operands -/

/-- The extension loop of R87 and R91: read bytes at `ip` and add them to `acc` until one is not `0xFF`. The count is the
number of bytes left, `C - ip`: at 0, `ip >= C` and the message ended inside the token. -/
def readExtension : Nat → Nat → State → Res Nat
  | 0, _, s => .raise .truncatedInput s
  | left + 1, acc, s =>
    (Res.ofRead (readByte .msg s.ip s) s).bind fun e s =>
      let s := { s with ip := s.ip + 1 }
      if e = 0xFF then readExtension left (acc + e.toNat) s else .ok (acc + e.toNat) s

/-- The two offset bytes, low byte first (R90). -/
def readOffset (s : State) : Res Nat :=
  if s.c < s.ip + 2 then .raise .truncatedInput s
  else
    (Res.ofRead (readByte .msg s.ip s) s).bind fun lo s =>
      (Res.ofRead (readByte .msg (s.ip + 1) s) s).bind fun hi s =>
        .ok (assembleOffset lo hi) { s with ip := s.ip + 2 }

/-- The literal bytes of `LIT` and `LITX`: checks of R119, copy, and both pointers (R113). -/
def literalRun (litlen : Nat) (s : State) : Res Unit :=
  if s.c < s.ip + litlen then .raise .truncatedInput s
  else if s.l < s.op + litlen then .raise .sizeMismatch s
  else
    (Res.ofExcept (copyRun .msg .dec s.ip s.op litlen 0 s)).bind fun _ s' =>
      .ok () { s' with ip := s'.ip + litlen, op := s'.op + litlen }

/-- The copy of `REF` and `REFX`: checks of R119, overlapping copy (R68, D4), output pointer (R115). -/
def backRefCopy (offset matchlen : Nat) (s : State) : Res Unit :=
  if offset = 0 ∨ s.op < offset then .raise .malformedStream s
  else if s.l < s.op + matchlen then .raise .sizeMismatch s
  else
    (Res.ofExcept (copyRun .dec .dec (s.op - offset) s.op matchlen 0 s)).bind fun _ s' =>
      .ok () { s' with op := s'.op + matchlen }

/-! ### Delta operands -/

/-- The sign bit of Frame byte `i`: `(DEC[N + i / 8] >> (i % 8)) & 1` (R142). -/
def readSign (i : Nat) (s : State) : Except Fault Bool :=
  match readByte .dec (s.n + i / 8) s with
  | .ok b => .ok (signOf b i)
  | .error f => .error f

/-- `REF[i] <- op(REF[i], DEC[i])`, the read-modify-write port of the Frame Store (R143, R144, R165). -/
def updateRefByte (f : Byte → Byte → Byte) (i : Nat) (s : State) : Except Fault State :=
  match readByte .ref i s with
  | .error e => .error e
  | .ok r =>
    match readByte .dec i s with
    | .error e => .error e
    | .ok d => writeByte .ref i (f r d) s

/-- `a +_8 b` (R12). -/
def add8 (a b : Byte) : Byte := a + b

/-- `a -_8 b` (R12). -/
def sub8 (a b : Byte) : Byte := a - b

end Sys2Proof.Machine
end

