-- ==== Sys2Proof/Machine/Controller.lean ====
section
/-! DEFINITION. The meanings of the controller operations: START, RECV, PRESENT, ACK, ABORT (42_frame_store_controller.md). -/

namespace Sys2Proof.Machine

/-- The configurations that `START` accepts: `W` and `H` at least 1 and `L <= MAX_DECODED_BYTES` (R163). -/
def acceptable (cfg : SessionConfig) (p : Params) : Bool :=
  cfg.w ≠ 0 ∧ cfg.h ≠ 0 ∧ decodedBytes cfg ≤ p.maxDecodedBytes

/-- A length that `RECV` accepts (R170): every length, with `MAX_MESSAGE_BYTES` unbounded. -/
def fitsMessage (length : Nat) (p : Params) : Bool :=
  match p.maxMessageBytes with
  | none => true
  | some bound => length ≤ bound

/-- The free length left in `C` by `START`, within its range 0 to `MAX_MESSAGE_BYTES` (R27, R39; log entry 4). -/
def freeLength (p : Params) (draw : Nat) : Nat :=
  match p.maxMessageBytes with
  | none => Config.freeNat draw
  | some bound => freeUpTo bound draw

/-- The session start of R162. `REF` reads as `0x00` at every address once nothing is listed in it. What R39 calls unspecified
or without a value afterwards carries nothing over from an earlier session (R41): `MSG` and `DEC` hold no byte, and
`C`, `ip`, `op`, `i`, `presented` are free values in their ranges (R27; log entry 4). -/
def startSession (cfg : SessionConfig) (s : State) : State :=
  let n := frameBytes cfg
  let l := decodedBytes cfg
  let c := freeLength s.params s.draws
  { s with
    cfg := cfg
    n := n
    m := bitmapBytes n
    l := l
    ref := []
    status := .active
    fsm := .awaitingFrame
    seq := .idle
    msg := []
    dec := []
    c := c
    ip := freeUpTo c (s.draws + 1)
    op := freeUpTo l (s.draws + 2)
    i := freeUpTo n (s.draws + 3)
    presented := Config.freeBool (s.draws + 4)
    draws := s.draws + 5
    trace := s.trace ++ [.ack s.params.ackSentinel] }

/-- `START` (R162), or its refusal with `ConfigRefused` (R163), in any `status` and `fsm` (R161, R164). -/
def execStart (cfg : SessionConfig) (s : State) : Outcome :=
  if acceptable cfg s.params then .next (startSession cfg s) else .next (s.takeError .configRefused)

/-- `RECV` (R170): latch the whole message, or `ABORT(SizeMismatch)` if it is longer than the input buffer (D13).
`awaiting_frame` is cleared with the change of `fsm` (R25). -/
def execRecv (bytes : List Byte) (s : State) : Outcome :=
  if fitsMessage bytes.length s.params then
    .next { s with msg := Memory.ofBytes 0 bytes, c := bytes.length, fsm := .decompressing }
  else .next (s.takeError .sizeMismatch)

/-- `PRESENT` (R172): the event carries a value copy of `REF[0 .. N)`. -/
def execPresent (s : State) : Outcome :=
  match readRun .ref s.n 0 s with
  | .error f => .fault f
  | .ok bytes => .next { s.emit (.present s.cfg.w s.cfg.h bytes) with presented := true }

/-- `ACK` (R173): `awaiting_frame` is set with the change of `fsm` (R25). -/
def execAck (s : State) : Outcome :=
  .next { s.emit (.ack s.params.ackSentinel) with fsm := .awaitingFrame }

/-- `ABORT kind` (R174, R200). -/
def execAbort (kind : ErrorKind) (s : State) : Outcome := .next (s.takeError kind)

end Sys2Proof.Machine
end

