-- ==== Sys2Proof/Machine/DeltaBytes.lean ====
section
/-! DEFINITION. The meanings of the per-byte operations ADDB and SUBB (41_delta_reconstructor.md). -/

namespace Sys2Proof.Machine

/-- `ADDB i` (R143): `REF[i] <- REF[i] +_8 DEC[i]`. -/
def execAddb (i : Nat) (s : State) : Outcome := (Res.ofExcept (updateRefByte add8 i s)).finish

/-- `SUBB i` (R144): `REF[i] <- REF[i] -_8 DEC[i]`. -/
def execSubb (i : Nat) (s : State) : Outcome := (Res.ofExcept (updateRefByte sub8 i s)).finish

end Sys2Proof.Machine
end

