-- ==== Sys2Proof/Machine/Tokens.lean ====
section
/-! DEFINITION. The meanings of the compressed-stream tokens: LIT, LITX, REF, REFX, END (40_block_decompressor.md). -/

namespace Sys2Proof.Machine

/-- `LIT` (R113). The back-reference part of the sequence is next, or `END`. -/
def execLit (ll mm : Nibble) (s : State) : Outcome :=
  ((literalRun ll.toNat { s with ip := s.ip + 1 }).bind fun _ s' =>
    .ok () { s' with seq := .backRef (tokenByte ll mm) }).finish

/-- `LITX` (R114). -/
def execLitx (mm : Nibble) (s : State) : Outcome :=
  ((readExtension (s.c - (s.ip + 1)) 15 { s with ip := s.ip + 1 }).bind fun litlen s' =>
    (literalRun litlen s').bind fun _ s'' =>
      .ok () { s'' with seq := .backRef (tokenByte 15 mm) }).finish

/-- `REF` (R115). The next sequence is next, or `END`. -/
def execRef (mm : Nibble) (s : State) : Outcome :=
  ((readOffset s).bind fun offset s' =>
    (backRefCopy offset (mm.toNat + matchBias) s').bind fun _ s'' =>
      .ok () { s'' with seq := .token }).finish

/-- `REFX` (R116). The whole token, its extension too, is read before the offset is validated. -/
def execRefx (s : State) : Outcome :=
  ((readOffset s).bind fun offset s' =>
    (readExtension (s'.c - s'.ip) 15 s').bind fun m s'' =>
      (backRefCopy offset (m + matchBias) s'').bind fun _ s''' =>
        .ok () { s''' with seq := .token }).finish

/-- `END` (R117): leaves the loop, and raises nothing itself; the exact-size check (R118) follows. -/
def execEndStream (s : State) : Outcome := .next { s with seq := .check }

end Sys2Proof.Machine
end

