-- ==== Sys2Proof/Machine/Sequencer.lean ====
section
/-! DEFINITION. The loops of `DECODE.C` (R112) and `RECON.D` (R145) as a sequencer: what is fetched at each point inside a stage,
one operation, and the operations up to the stage's end. -/

namespace Sys2Proof.Machine

/-- What a fetch finds: an operation and the state it runs at, the end of the stage, nothing to do, or a model fault. -/
inductive Fetched (ι : Type) where
  | run (op : ι) (s : State)
  | closeStage (s : State)
  | wait (s : State)
  | fault (f : Fault)
  deriving DecidableEq, Repr

/-- The same fetch with the operation renamed. -/
def Fetched.map {ι κ : Type} (g : ι → κ) : Fetched ι → Fetched κ
  | .run op s => .run (g op) s
  | .closeStage s => .closeStage s
  | .wait s => .wait s
  | .fault f => .fault f

/-- The fetch inside a stage. In the loop of R112 the stream ends where `ip = C`, before a token byte or after the literals of
a sequence (R117); otherwise the token byte selects the operation (R93). In the loop of R145 the sign bit of Frame byte `i`
selects the operation, and the loop's index moves on (R142; log entry 9). -/
def fetchMicro (s : State) : Fetched MicroOp :=
  match s.seq with
  | .idle => .wait s
  | .token =>
    if s.ip < s.c then
      match readByte .msg s.ip s with
      | .ok t => .run (decodeLiteralPart t) s
      | .error f => .fault f
    else .run .endStream s
  | .backRef t => if s.ip < s.c then .run (decodeBackRefPart t) s else .run .endStream s
  | .check => .closeStage s
  | .delta =>
    if s.i < s.n then
      match readSign s.i s with
      | .ok sign => .run (decodeSign sign s.i) { s with i := s.i + 1 }
      | .error f => .fault f
    else .closeStage s

/-- Run one operation of a stage. -/
def runMicro (op : MicroOp) (s : State) : Outcome :=
  match op with
  | .lit ll mm => execLit ll mm s
  | .litx mm => execLitx mm s
  | .ref mm => execRef mm s
  | .refx => execRefx s
  | .endStream => execEndStream s
  | .addb i => execAddb i s
  | .subb i => execSubb i s

/-- Decode succeeded: the reconstruct stage is next (R171). -/
def State.enterReconstructing (s : State) : State := { s with seq := .idle, fsm := .reconstructing }

/-- Reconstruct ended: presentation is next (R171). -/
def State.enterPresenting (s : State) : State :=
  { s with seq := .idle, fsm := .presenting, presented := false }

/-- The exact-size check after `END` (R118), then the stage change (R171). -/
def finishDecode (s : State) : Outcome :=
  if s.op = s.l then .next s.enterReconstructing else .next (s.takeError .sizeMismatch)

/-- The end of the stage in progress. -/
def closeStage (s : State) : Outcome :=
  if s.seq = .delta then .next s.enterPresenting else finishDecode s

/-- One step inside a stage. -/
def microStep (s : State) : Outcome :=
  match fetchMicro s with
  | .run op s' => runMicro op s'
  | .closeStage s' => closeStage s'
  | .wait s' => .next s'
  | .fault f => .fault f

/-- Steps inside a stage until it ends, at most `fuel` of them. -/
def runStage : Nat → State → Outcome
  | 0, s => .next s
  | fuel + 1, s =>
    if s.seq = .idle then .next s
    else
      match microStep s with
      | .next s' => runStage fuel s'
      | .fault f => .fault f
      | .refused r => .refused r

end Sys2Proof.Machine
end

