-- ==== Sys2Proof/Machine/Stages.lean ====
section
/-! DEFINITION. The meanings of the stage operations: DECODE.C, DECODE.P (40_block_decompressor.md), RECON.D, RECON.R
(41_delta_reconstructor.md), each with the stage change of R171. -/

namespace Sys2Proof.Machine

/-- The replay of an abstract token list into `DEC` (R124). -/
def replayTokens : List Token → State → Res Unit
  | [], s => .ok () s
  | .literal bytes :: rest, s =>
    if s.l < s.op + bytes.length then .raise .sizeMismatch s
    else
      (Res.ofExcept (writeRun .dec s.op bytes s)).bind fun _ s' =>
        replayTokens rest { s' with op := s'.op + bytes.length }
  | .backRef offset length :: rest, s =>
    (backRefCopy offset length s).bind fun _ s' => replayTokens rest s'

/-- Decode under a token format given by its parser (R84, R124): the replay, `TruncatedInput` at the end of the list if the
parser found the stream cut there, then the exact-size check (R118). The input pointer is not part of another format; it
stays 0 (log entry 10). -/
def decompressAbstract (parse : List Byte → TokenStream) (s : State) : Outcome :=
  match readRun .msg s.c 0 s with
  | .error f => .fault f
  | .ok message =>
    let stream := parse message
    match replayTokens stream.tokens { s with ip := 0, op := 0 } with
    | .ok _ s' => if stream.truncated then .next (s'.takeError .truncatedInput) else finishDecode s'
    | .raise kind s' => .next (s'.takeError kind)
    | .fault f => .fault f

/-- Decode under SEQ16: the loop of R112. A message of `C` bytes has at most `C` token bytes and `C` back-reference parts,
then `END` and the check, so the fuel never runs out (R123). -/
def decompressSeq16 (s : State) : Outcome :=
  runStage (2 * s.c + 3) { s with ip := 0, op := 0, seq := .token }

/-- The compressed decode under a token format (R10, R84). -/
def decompress (format : TokenFormat) (s : State) : Outcome :=
  match format with
  | .seq16 => decompressSeq16 s
  | .other k => decompressAbstract (parseOther k) s

/-- `DECODE.C` (R112), under the token format of the machine's parameters (R10, R38). -/
def execDecodeC (s : State) : Outcome := decompress s.params.tokenFormat s

/-- `DECODE.P` (R111): `C = L` is checked before any byte is copied. -/
def execDecodeP (s : State) : Outcome :=
  if s.c = s.l then
    ((Res.ofExcept (copyRun .msg .dec 0 0 s.l 0 s)).bind fun _ s' => .ok () s'.enterReconstructing).finish
  else .next (s.takeError .sizeMismatch)

/-- `RECON.D` (R145): for every `i` below `N` in ascending order, `ADDB` or `SUBB` by the sign bit. -/
def execReconD (s : State) : Outcome := runStage (s.n + 1) { s with i := 0, seq := .delta }

/-- `for i in i .. N - 1: REF[i] <- DEC[i]` (R146), with the loop's index in its register. -/
def replaceRun : Nat → State → Except Fault State
  | 0, s => .ok s
  | count + 1, s =>
    match readByte .dec s.i s with
    | .error f => .error f
    | .ok v =>
      match writeByte .ref s.i v s with
      | .error f => .error f
      | .ok s' => replaceRun count { s' with i := s'.i + 1 }

/-- `RECON.R` (R146). -/
def execReconR (s : State) : Outcome :=
  ((Res.ofExcept (replaceRun s.n { s with i := 0 })).bind fun _ s' => .ok () s'.enterPresenting).finish

end Sys2Proof.Machine
end

