-- ==== Sys2Proof/Machine/Dispatch.lean ====
section
/-! DEFINITION. The dispatch: one arm for each instruction. -/

namespace Sys2Proof.Machine

def exec (i : Instr) (s : State) : Host.Outcome State Fault Refusal :=
  match i with
  | .lit ll mm => Sys2Proof.Machine.execLit ll mm s
  | .litx mm => Sys2Proof.Machine.execLitx mm s
  | .ref mm => Sys2Proof.Machine.execRef mm s
  | .refx => Sys2Proof.Machine.execRefx s
  | .endStream => Sys2Proof.Machine.execEndStream s
  | .decodeC => Sys2Proof.Machine.execDecodeC s
  | .decodeP => Sys2Proof.Machine.execDecodeP s
  | .reconD => Sys2Proof.Machine.execReconD s
  | .reconR => Sys2Proof.Machine.execReconR s
  | .addb k => Sys2Proof.Machine.execAddb k s
  | .subb k => Sys2Proof.Machine.execSubb k s
  | .start cfg => Sys2Proof.Machine.execStart cfg s
  | .recv bytes => Sys2Proof.Machine.execRecv bytes s
  | .present => Sys2Proof.Machine.execPresent s
  | .ack => Sys2Proof.Machine.execAck s
  | .abort kind => Sys2Proof.Machine.execAbort kind s

end Sys2Proof.Machine
end

