-- ==== Sys2Proof/Machine/Flags.lean ====
section
/-! DEFINITION. Flags and views of the status. There are no arithmetic flags (R26): the carry of `ADDB` and the borrow of `SUBB`
are discarded. What is left is `awaiting_frame` (R25) and the error code (R190). -/

namespace Sys2Proof.Machine

/-- `awaiting_frame` (R25): "awaiting_frame = (status = Active and fsm = AwaitingFrame)". -/
def State.awaitingFrame (s : State) : Bool := s.status = .active ∧ s.fsm = .awaitingFrame

/-- The numeric code of an error kind (R190, D7). -/
def errorCode : ErrorKind → Nat
  | .malformedStream => 1
  | .truncatedInput => 2
  | .sizeMismatch => 3
  | .protocolViolation => 4
  | .channelClosed => 5
  | .timeout => 6
  | .configRefused => 7

/-- The code on the failure port: 0 means no error (R190). DESIGN CHOICE (log entry 19): the port holds the code as a level for as long
as the status is terminated, and shows 0 again after an accepted START; the spec says only what the codes are. -/
def State.failPort (s : State) : Nat :=
  match s.status with
  | .noSession => 0
  | .active => 0
  | .terminated kind => errorCode kind

end Sys2Proof.Machine
end

