-- ==== Sys2Proof/Machine/Fetch.lean ====
section
/-! DEFINITION. What the block does next: the transition table of R161 as a selection of one operation. -/

namespace Sys2Proof.Machine

/-- The operation that an input event triggers, if it triggers one (R161, R164, R170, R175 to R178). -/
def selectEvent (e : InEvent) (s : State) : Option Selector :=
  match e with
  | .sessionStart cfg => some (.sessionStart cfg)
  | .message bytes =>
    if s.awaitingFrame then some (.message bytes)
    else if s.status = .active then some (.error .protocolViolation)
    else none
  | .channelClosed => if s.status = .active then some (.error .channelClosed) else none
  | .timeoutExpired => if s.awaitingFrame then some (.error .timeout) else none

/-- The internal step that is enabled, if one is (R161, R171, R172, R173, R200: none outside an active session; R210: none
in `AwaitingFrame`). -/
def selectInternal (s : State) : Option Selector :=
  if s.status = .active then
    match s.fsm with
    | .awaitingFrame => none
    | .decompressing => some (.decodeMode s.cfg.compression s.cfg.delta)
    | .reconstructing => some (.reconMode s.cfg.compression s.cfg.delta)
    | .presenting => if s.presented then some .presented else some .presenting
  else none

/-- Run the selected operation at `s`, or leave `s` as it is (log entry 11). -/
def fetchSelected (sel : Option Selector) (s : State) : Fetched Instr :=
  match sel with
  | some x => .run (decode x) s
  | none => .wait s

/-- The fetch between two steps of the table of R161: the environment's next event if it delivers one here, else the block's
internal step (R199). -/
def fetchBoundary (s : State) : Fetched Instr :=
  match s.inputs with
  | [] => fetchSelected (selectInternal s) s
  | .quiet :: rest => fetchSelected (selectInternal s) { s with inputs := rest }
  | .event e :: rest => fetchSelected (selectEvent e s) { s with inputs := rest }

/-- The fetch: inside a stage the stage goes on, and no event is taken (R199: events take effect "between steps of the table";
log entry 8). -/
def fetch (s : State) : Fetched Instr :=
  if s.seq = .idle then fetchBoundary s else (fetchMicro s).map MicroOp.toInstr

/-- Place a table word where the next fetch reads it: as the message being decoded, with the sequencer at the part of the
sequence that the word stands for (log entry 7). -/
def placeTableWord (s : State) (nbits w : Nat) : State :=
  let bytes := tableBytes nbits w
  { s with
    status := .active
    fsm := .decompressing
    seq := (match tableLatched nbits w with | none => .token | some t => .backRef t)
    msg := Memory.ofBytes 0 bytes
    c := bytes.length
    ip := tableStart nbits w }

end Sys2Proof.Machine
end

