-- ==== Sys2Proof/Machine/Step.lean ====
section
/-! DEFINITION. One step of the block (R161, C7 of 90_conflicts.md: the small-step machine is the normative one), and the
placing of a table word. -/

namespace Sys2Proof.Machine

/-- Fetch, then run what was fetched. -/
def step (s : State) : Host.Outcome State Fault Refusal :=
  match fetch s with
  | .run i s' => exec i s'
  | .closeStage s' => closeStage s'
  | .wait s' => .next s'
  | .fault f => .fault f

/-- `s` with a table word where `step` fetches its next instruction (log entry 7). -/
def State.withFetchWord (s : State) (nbits w : Nat) : State := placeTableWord s nbits w

end Sys2Proof.Machine
end

