-- ==== Sys2Proof/Machine/Reference.lean ====
section
/-! DEFINITION. The spec's functions apart from the machine, in whose terms claims are made: `decode` (R110, R124), `reconstruct`
(R140 to R146), the encoding that inverts it (R149), and the contents of a space. No step calls them. -/

namespace Sys2Proof.Machine

/-! ### Contents of a space -/

/-- The byte at an address of a space has a value. -/
def Readable (sp : Space) (a : Nat) (s : State) : Prop := ∃ v, readByte sp a s = .ok v

/-- All bytes of a space in address order, `S[0 .. size)`. -/
def contents (sp : Space) (s : State) : Except Fault (List Byte) := readRun sp (s.size sp) 0 s

/-- A length extension at an address of `MSG`: `k` bytes `0xFF` and the byte `e` that ends it (R87). -/
def ExtensionAt (a k : Nat) (e : Byte) (s : State) : Prop :=
  (∀ j, j < k → readByte .msg (a + j) s = .ok 0xFF) ∧ readByte .msg (a + k) s = .ok e ∧ e ≠ 0xFF

/-- The sum of a length extension (R87). -/
def extensionSum (k : Nat) (e : Byte) : Nat := 255 * k + e.toNat

/-! ### Outcomes -/

/-- The outcome takes the error `kind` (R200) from the state `s`: `status` and the trace change, and nothing else of the spec's
state. Where the sequencer then stands is the model's own (log entry 8), and is left open here. -/
def Raises (o : Outcome) (s : State) (kind : ErrorKind) : Prop :=
  ∃ t, o = .next t ∧ t = { s with status := .terminated kind, trace := s.trace ++ [.fail kind], seq := t.seq }

/-! ### `decode` -/

/-- The parser of a token format (R84). -/
def parserOf : TokenFormat → List Byte → TokenStream
  | .seq16 => parseSeq16
  | .other k => parseOther k

/-- The bytes after a back-reference onto `out`, byte by byte, each read seeing the bytes appended before it (R115, R124).
With `1 <= offset <= out.length` the byte exists. -/
def appendCopy (offset : Nat) : Nat → List Byte → List Byte
  | 0, out => out
  | count + 1, out => appendCopy offset count (out ++ [out.getD (out.length - offset) 0])

/-- `replay(tokens, L)` (R124) from the bytes written so far, without its last check. -/
def replay (l : Nat) : List Token → List Byte → Except ErrorKind (List Byte)
  | [], out => .ok out
  | .literal bytes :: rest, out =>
    if l < out.length + bytes.length then .error .sizeMismatch else replay l rest (out ++ bytes)
  | .backRef offset length :: rest, out =>
    if offset = 0 ∨ out.length < offset then .error .malformedStream
    else if l < out.length + length then .error .sizeMismatch
    else replay l rest (appendCopy offset length out)

/-- The replay of a parsed message: a cut stream raises `TruncatedInput` after its last token, then the exact-size check
(R118, R124). -/
def replayStream (l : Nat) (stream : TokenStream) : Except ErrorKind (List Byte) :=
  match replay l stream.tokens [] with
  | .error kind => .error kind
  | .ok out =>
    if stream.truncated then .error .truncatedInput
    else if out.length = l then .ok out else .error .sizeMismatch

/-- `decode(compressed, output_capacity)` (R110), a function of the message, the capacity and the mode flag. -/
def decodeMessage (format : TokenFormat) (compression : Bool) (message : List Byte) (l : Nat) :
    Except ErrorKind (List Byte) :=
  if compression then replayStream l (parserOf format message)
  else if message.length = l then .ok message else .error .sizeMismatch

/-! ### `reconstruct` -/

/-- The new value of Frame byte `i` from the old frame and the decoded buffer (R142, R143, R144, R146). -/
def reconstructByte (delta : Bool) (n : Nat) (old decoded : List Byte) (i : Nat) : Byte :=
  if delta then
    if signOf (decoded.getD (n + i / 8) 0) i then sub8 (old.getD i 0) (decoded.getD i 0)
    else add8 (old.getD i 0) (decoded.getD i 0)
  else decoded.getD i 0

/-- `reconstruct(reference, decoded)` (R140, R145, R146). -/
def reconstruct (delta : Bool) (n : Nat) (old decoded : List Byte) : List Byte :=
  (List.range n).map (reconstructByte delta n old decoded)

/-- The frames of a session, each reconstructed on the one before it (R66). -/
def frameSequence (delta : Bool) (n : Nat) : List Byte → List (List Byte) → List (List Byte)
  | _, [] => []
  | old, decoded :: rest =>
    reconstruct delta n old decoded :: frameSequence delta n (reconstruct delta n old decoded) rest

/-- The outputs that answer the frames of a session: each frame's presentation, then its acknowledgment (R179). -/
def lockStepOutputs (s : State) (frames : List (List Byte)) : List OutEvent :=
  frames.flatMap fun frame => [.present s.cfg.w s.cfg.h frame, .ack s.params.ackSentinel]

/-- The environment's slots that deliver a message and then nothing while its cycle runs (R180). -/
def cycleSlots (message : List Byte) : List Slot :=
  [.event (.message message), .quiet, .quiet, .quiet, .quiet]

/-- The decoded buffer that makes `reconstruct` yield `frame` from `old` under a bitmap (R149: a test oracle, the encoder is
out of scope). -/
def encodeDelta (n : Nat) (old frame bitmap : List Byte) : List Byte :=
  (List.range n).map (fun i =>
    if signOf (bitmap.getD (i / 8) 0) i then sub8 (old.getD i 0) (frame.getD i 0)
    else sub8 (frame.getD i 0) (old.getD i 0)) ++ bitmap

end Sys2Proof.Machine
end

