-- ==== Sys2Proof/Safety.lean ====
section
/-! DEFINITION. What a safe run of the block is: the invariant that every step keeps, and under which no step stops (R70). -/

namespace Sys2Proof.Machine

/-- The memory of a space has its canonical form, and lists no address outside the space (R33, R70). -/
def SpaceOk (sp : Space) (s : State) : Prop :=
  Memory.wf sp.unlisted (s.mem sp) ∧ ∀ x ∈ s.mem sp, x.1 < s.size sp

/-- `k` steps, stopping at a fault or a refusal. -/
def runSteps : Nat → State → Outcome
  | 0, s => .next s
  | k + 1, s =>
    match step s with
    | .next s' => runSteps k s'
    | .fault f => .fault f
    | .refused r => .refused r

/-- The states that the block can be in. -/
structure Inv (s : State) : Prop where
  /-- `N`, `M`, `L` are the functions of `cfg` of R9. -/
  sizeN : s.n = frameBytes s.cfg
  sizeM : s.m = bitmapBytes s.n
  sizeL : s.l = decodedBytes s.cfg
  /-- The three memories are canonical and inside their spaces. -/
  spaces : ∀ sp, SpaceOk sp s
  /-- An active session has an accepted configuration (R163). -/
  accepted : s.status = .active → acceptable s.cfg s.params = true
  /-- A message being decoded has an accepted length (R170), and every byte of it has a value (R30). -/
  message : s.status = .active → s.fsm = .decompressing →
    fitsMessage s.c s.params = true ∧ ∀ a, a < s.c → Readable .msg a s
  /-- Reconstruction starts only from a decoded buffer in which every byte has a value (R110, R121, R140). -/
  decoded : s.status = .active → s.fsm = .reconstructing → ∀ a, a < s.l → Readable .dec a s
  /-- Inside `DECODE.C`: the pointers are in their ranges (R27), and the bytes written so far have values (R121). -/
  decoding : s.seq = .token ∨ (∃ t, s.seq = .backRef t) ∨ s.seq = .check →
    s.status = .active ∧ s.fsm = .decompressing ∧ s.cfg.compression = true ∧ s.ip ≤ s.c ∧ s.op ≤ s.l ∧
      ∀ a, a < s.op → Readable .dec a s
  /-- The operations of `DECODE.C` are tokens of SEQ16 (R84, R85): under another format the stage has no points inside. -/
  format : s.seq = .token ∨ (∃ t, s.seq = .backRef t) ∨ s.seq = .check → s.params.tokenFormat = .seq16
  /-- After `END` the whole message has been read (R117). -/
  ended : s.seq = .check → s.ip = s.c
  /-- Inside `RECON.D` the index is in its range (R27). -/
  delta : s.seq = .delta → s.status = .active ∧ s.fsm = .reconstructing ∧ s.cfg.delta = true ∧ s.i ≤ s.n

end Sys2Proof.Machine
end

