-- ==== Sys2Proof/WellFormed.lean ====
section
/-! DEFINITION. Which instructions an encoding of the spec can select. -/

namespace Sys2Proof

/-- The checks of R93: `LIT` has `LL != 15` and `REF` has `MM != 15`, since the value 15 selects `LITX` and `REFX`. Every
other operand value can be encoded (R96), and every configuration, message and error kind can be an operand. -/
def WellFormed : Instr → Bool
  | .lit ll _ => ll ≠ 15
  | .litx _ => true
  | .ref mm => mm ≠ 15
  | .refx => true
  | .endStream => true
  | .decodeC => true
  | .decodeP => true
  | .reconD => true
  | .reconR => true
  | .addb _ => true
  | .subb _ => true
  | .start _ => true
  | .recv _ => true
  | .present => true
  | .ack => true
  | .abort _ => true

end Sys2Proof
end

