-- ==== Sys2Proof/Certificates/Slice0/Obligations.lean ====
section
/-! DEFINITION. The statements for the provers. -/

open Sys2Proof Sys2Proof.Machine

/-! ### Encodings -/

/-- R51, R81, R90, R93, R97: words written out from the tables decode to the operations they stand for. -/
def Obligations.TableWordsDecode : Prop :=
  decode (.literalPart 0b00110101) = .lit 3 5 ∧
  decode (.backRefPart 0b00110101) = .ref 5 ∧
  decode (.literalPart 0b11110010) = .litx 2 ∧
  decode (.backRefPart 0b00101111) = .refx ∧
  decode .boundary = .endStream ∧
  decode (.decodeMode true true) = .decodeC ∧ decode (.decodeMode false true) = .decodeP ∧
  decode (.reconMode false true) = .reconD ∧ decode (.reconMode true false) = .reconR ∧
  decode (.signBit (signOf 0b00010110 2) 2) = .subb 2 ∧ decode (.signBit (signOf 0b00010110 3) 3) = .addb 3 ∧
  assembleOffset 0x2C 0x01 = 300

/-- Decode inverts encode on every well-formed instruction: R81, R86, R93, R97. -/
def Obligations.DecodeInvertsEncode : Prop :=
  ∀ i : Instr, WellFormed i = true → decode (encode i) = i

/-- R85 to R91, R100: the SEQ16 parser reads back every stream the assembler writes, every literal run, every 16-bit offset and
every length from 4 on. -/
def Obligations.SeqStreamsParseBack : Prop :=
  ∀ (sequences : List Sequence) (tail : Option (List Byte)), (∀ q ∈ sequences, q.wellFormed = true) →
    parseSeq16 (encodeStream sequences tail) = ⟨streamTokens sequences tail, false⟩

/-- R94: the encoded length of a sequence is `1 + x_l + litlen + 2 + x_m`, each `x` being 0 below 15 and else the extension sum
divided by 255, plus one. -/
def Obligations.SequenceLengthCounted : Prop :=
  ∀ q : Sequence, q.wellFormed = true →
    (encodeSequence q).length =
      1 + (if q.literals.length < 15 then 0 else (q.literals.length - 15) / 255 + 1) + q.literals.length + 2 +
        (if q.length - 4 < 15 then 0 else (q.length - 4 - 15) / 255 + 1)

/-! ### Literal runs

Where the sequencer stands after a token is the model's own (log entry 8): it is left open here, and said by `StageMovesOn`. -/

/-- R113: LIT raises TruncatedInput if its bytes are not all in the message, else SizeMismatch if they do not fit (R119); else it
completes: it copies its bytes, advances both pointers, and changes nothing else. (The model's choices: that `DEC` after an error is
as before the failing token is log entry 17; what LIT does with `LL = 15`, which R113 excludes, is log entry 14.) -/
def Obligations.LitCopiesLiterals : Prop :=
  ∀ (ll mm : Nibble) (s : State),
    (s.c < s.ip + 1 + ll.toNat → Raises (exec (.lit ll mm) s) { s with ip := s.ip + 1 } .truncatedInput) ∧
    (s.ip + 1 + ll.toNat ≤ s.c → s.l < s.op + ll.toNat →
      Raises (exec (.lit ll mm) s) { s with ip := s.ip + 1 } .sizeMismatch) ∧
    (s.ip + 1 + ll.toNat ≤ s.c → s.op + ll.toNat ≤ s.l → (∀ k, k < ll.toNat → Readable .msg (s.ip + 1 + k) s) →
      ∃ t, exec (.lit ll mm) s = .next t ∧
        t = { s with ip := s.ip + 1 + ll.toNat, op := s.op + ll.toNat, seq := t.seq, dec := t.dec } ∧
        (∀ k, k < ll.toNat → readByte .dec (s.op + k) t = readByte .msg (s.ip + 1 + k) s) ∧
        (∀ a, a < s.op ∨ s.op + ll.toNat ≤ a → readByte .dec a t = readByte .dec a s))

/-- R114, R87: LITX raises TruncatedInput inside the extension or inside the literal bytes, else SizeMismatch; else it completes
with the run of 15 plus the extension's sum. (That `DEC` after an error is as before the failing token is the model's choice, log
entry 17.) -/
def Obligations.LitxCopiesLiterals : Prop :=
  ∀ (mm : Nibble) (s : State),
    ((∀ a, s.ip + 1 ≤ a → a < s.c → readByte .msg a s = .ok 0xFF) →
      Raises (exec (.litx mm) s) { s with ip := max s.c (s.ip + 1) } .truncatedInput) ∧
    (∀ k e, ExtensionAt (s.ip + 1) k e s →
      (s.c < s.ip + 2 + k + (15 + extensionSum k e) →
        Raises (exec (.litx mm) s) { s with ip := s.ip + 2 + k } .truncatedInput) ∧
      (s.ip + 2 + k + (15 + extensionSum k e) ≤ s.c → s.l < s.op + (15 + extensionSum k e) →
        Raises (exec (.litx mm) s) { s with ip := s.ip + 2 + k } .sizeMismatch) ∧
      (s.ip + 2 + k + (15 + extensionSum k e) ≤ s.c → s.op + (15 + extensionSum k e) ≤ s.l →
        (∀ j, j < 15 + extensionSum k e → Readable .msg (s.ip + 2 + k + j) s) →
        ∃ t, exec (.litx mm) s = .next t ∧
          t = { s with ip := s.ip + 2 + k + (15 + extensionSum k e), op := s.op + (15 + extensionSum k e),
                       seq := t.seq, dec := t.dec } ∧
          (∀ j, j < 15 + extensionSum k e → readByte .dec (s.op + j) t = readByte .msg (s.ip + 2 + k + j) s) ∧
          (∀ a, a < s.op ∨ s.op + (15 + extensionSum k e) ≤ a → readByte .dec a t = readByte .dec a s)))

/-! ### Back-references -/

/-- R115: REF raises TruncatedInput, then MalformedStream, then SizeMismatch (R119); else it completes: `MM + 4` bytes, each the byte
`offset` before it, overlapping or not (R68). (The model's choices: that `DEC` after an error is as before the failing token is log
entry 17; what REF does with `MM = 15`, which R115 excludes, is log entry 14.) -/
def Obligations.RefCopiesBack : Prop :=
  ∀ (mm : Nibble) (s : State),
    (s.c < s.ip + 2 → Raises (exec (.ref mm) s) s .truncatedInput) ∧
    (∀ lo hi, readByte .msg s.ip s = .ok lo → readByte .msg (s.ip + 1) s = .ok hi →
      (lo.toNat + 256 * hi.toNat = 0 ∨ s.op < lo.toNat + 256 * hi.toNat →
        Raises (exec (.ref mm) s) { s with ip := s.ip + 2 } .malformedStream) ∧
      (1 ≤ lo.toNat + 256 * hi.toNat → lo.toNat + 256 * hi.toNat ≤ s.op → s.l < s.op + (mm.toNat + 4) →
        Raises (exec (.ref mm) s) { s with ip := s.ip + 2 } .sizeMismatch) ∧
      (1 ≤ lo.toNat + 256 * hi.toNat → lo.toNat + 256 * hi.toNat ≤ s.op → s.op + (mm.toNat + 4) ≤ s.l →
        (∀ a, s.op - (lo.toNat + 256 * hi.toNat) ≤ a → a < s.op → Readable .dec a s) →
        ∃ t, exec (.ref mm) s = .next t ∧
          t = { s with ip := s.ip + 2, op := s.op + (mm.toNat + 4), seq := t.seq, dec := t.dec } ∧
          (∀ k, k < mm.toNat + 4 →
            readByte .dec (s.op + k) t = readByte .dec (s.op + k - (lo.toNat + 256 * hi.toNat)) t) ∧
          (∀ a, a < s.op ∨ s.op + (mm.toNat + 4) ≤ a → readByte .dec a t = readByte .dec a s)))

/-- R116: REFX reads its whole token, the extension too, before the offset is validated; then as REF, with 15 plus the
extension's sum plus 4 bytes. (That `DEC` after an error is as before the failing token is the model's choice, log entry 17.) -/
def Obligations.RefxCopiesBack : Prop :=
  ∀ s : State,
    (s.c < s.ip + 2 → Raises (exec .refx s) s .truncatedInput) ∧
    (∀ lo hi, readByte .msg s.ip s = .ok lo → readByte .msg (s.ip + 1) s = .ok hi →
      ((∀ a, s.ip + 2 ≤ a → a < s.c → readByte .msg a s = .ok 0xFF) →
        Raises (exec .refx s) { s with ip := s.c } .truncatedInput) ∧
      (∀ k e, ExtensionAt (s.ip + 2) k e s →
        (lo.toNat + 256 * hi.toNat = 0 ∨ s.op < lo.toNat + 256 * hi.toNat →
          Raises (exec .refx s) { s with ip := s.ip + 3 + k } .malformedStream) ∧
        (1 ≤ lo.toNat + 256 * hi.toNat → lo.toNat + 256 * hi.toNat ≤ s.op →
          s.l < s.op + (15 + extensionSum k e + 4) →
          Raises (exec .refx s) { s with ip := s.ip + 3 + k } .sizeMismatch) ∧
        (1 ≤ lo.toNat + 256 * hi.toNat → lo.toNat + 256 * hi.toNat ≤ s.op →
          s.op + (15 + extensionSum k e + 4) ≤ s.l →
          (∀ a, s.op - (lo.toNat + 256 * hi.toNat) ≤ a → a < s.op → Readable .dec a s) →
          ∃ t, exec .refx s = .next t ∧
            t = { s with ip := s.ip + 3 + k, op := s.op + (15 + extensionSum k e + 4), seq := t.seq, dec := t.dec } ∧
            (∀ j, j < 15 + extensionSum k e + 4 →
              readByte .dec (s.op + j) t = readByte .dec (s.op + j - (lo.toNat + 256 * hi.toNat)) t) ∧
            (∀ a, a < s.op ∨ s.op + (15 + extensionSum k e + 4) ≤ a → readByte .dec a t = readByte .dec a s))))

/-! ### End of stream and exact size -/

/-- R117, R118: after END, a short buffer is SizeMismatch; a full one lets the reconstruct stage begin (R171). (That END leaves the
loop by the sequencer's position `check` is the model's own form, log entry 8.) -/
def Obligations.EndChecksExactSize : Prop :=
  ∀ s : State,
    exec .endStream s = .next { s with seq := .check } ∧
    (s.seq = .check →
      (s.op = s.l → step s = .next { s with seq := .idle, fsm := .reconstructing }) ∧
      (s.op ≠ s.l → step s = .next (s.takeError .sizeMismatch)))

/-! ### The decode stage -/

/-- R111: DECODE.P copies a message of exactly `L` bytes, and raises SizeMismatch for any other length before a byte is copied.
The stage change is R171's. -/
def Obligations.PassThroughCopiesMessage : Prop :=
  ∀ s : State,
    (s.c = s.l → (∀ a, a < s.c → Readable .msg a s) →
      ∃ t, exec .decodeP s = .next t ∧
        t = { s with dec := t.dec, seq := t.seq, fsm := .reconstructing } ∧ contents .dec t = contents .msg s) ∧
    (s.c ≠ s.l → Raises (exec .decodeP s) s .sizeMismatch)

/-- R110, R112, R10: DECODE.C computes the function `decode` of the message and the capacity, under the token format of the machine's
parameters: on success `DEC` holds its result, on an error the error is taken, and the rest of the state is as it was. (That the
sequencer ends idle is log entry 8, and where `ip` stands under another format than SEQ16 is log entry 10.) -/
def Obligations.CompressedDecodeComputesReplay : Prop :=
  ∀ (s : State) (message : List Byte), contents .msg s = .ok message →
    match decodeMessage s.params.tokenFormat true message s.l with
    | .ok out => ∃ t, exec .decodeC s = .next t ∧
        t = { s with ip := t.ip, op := s.l, seq := .idle, fsm := .reconstructing, dec := t.dec } ∧
        (s.params.tokenFormat = .seq16 → t.ip = s.c) ∧ contents .dec t = .ok out
    | .error kind => ∃ t, exec .decodeC s = .next t ∧
        t = { s with ip := t.ip, op := t.op, dec := t.dec, seq := .idle, status := .terminated kind,
                     trace := s.trace ++ [.fail kind] }

/-- R84, R124: whatever parser another token format supplies, the stage replays the tokens it yields; and DECODE.C runs that
stage, with the parser of the format of the machine's parameters (R10). (That the sequencer ends idle is log entry 8.) -/
def Obligations.AbstractReplayUnderAnyFormat : Prop :=
  ∀ (s : State) (message : List Byte), contents .msg s = .ok message →
    (∀ k, s.params.tokenFormat = .other k → exec .decodeC s = decompressAbstract (parseOther k) s) ∧
    (∀ parse : List Byte → TokenStream,
      match replayStream s.l (parse message) with
      | .ok out => ∃ t, decompressAbstract parse s = .next t ∧
          t = { s with ip := t.ip, op := s.l, seq := .idle, fsm := .reconstructing, dec := t.dec } ∧
          contents .dec t = .ok out
      | .error kind => ∃ t, decompressAbstract parse s = .next t ∧
          t = { s with ip := t.ip, op := t.op, dec := t.dec, seq := .idle, status := .terminated kind,
                       trace := s.trace ++ [.fail kind] })

/-- R110: the decode stage writes no state but `DEC`, `ip` and `op`, beside what the controller's transition writes (R161): from
any state, and `REF` never. -/
def Obligations.DecodeStageFrame : Prop :=
  ∀ (i : Instr) (s t : State), i = .decodeC ∨ i = .decodeP → exec i s = .next t →
    t = { s with status := t.status, fsm := t.fsm, ip := t.ip, op := t.op, seq := t.seq, dec := t.dec, trace := t.trace } ∧
      (t.status = s.status ∧ t.trace = s.trace ∨
        ∃ kind, t.status = .terminated kind ∧ t.fsm = s.fsm ∧ t.trace = s.trace ++ [.fail kind])

/-- R110, R118: a decode that succeeds yields exactly the capacity, in both modes, under every format and whatever its parser
yields. -/
def Obligations.DecodeYieldsExactCapacity : Prop :=
  (∀ (stream : TokenStream) (l : Nat) (out : List Byte), replayStream l stream = .ok out → out.length = l) ∧
  (∀ (format : TokenFormat) (compression : Bool) (message : List Byte) (l : Nat) (out : List Byte),
    decodeMessage format compression message l = .ok out → out.length = l)

/-- R191: an offset of 0, or past the bytes written so far, raises MalformedStream whatever follows it in the stream. -/
def Obligations.BadOffsetIsMalformed : Prop :=
  ∀ (l offset length : Nat) (before after : List Token) (truncated : Bool) (out : List Byte),
    replay l before [] = .ok out → offset = 0 ∨ out.length < offset →
    replayStream l ⟨before ++ .backRef offset length :: after, truncated⟩ = .error .malformedStream

/-- R101: FILL writes `n` copies of its byte. -/
def Obligations.FillWritesCopies : Prop :=
  ∀ (b : Byte) (n l : Nat), 5 ≤ n → n ≤ l → replay l (fillTokens b n) [] = .ok (List.replicate n b)

/-- R28, R112: under SEQ16, the format that has token bytes, DECODE.C is the run of single steps from its start, one operation a
step. (Under another format it is the replay of `AbstractReplayUnderAnyFormat`.) -/
def Obligations.DecodeIsTokenByToken : Prop :=
  ∀ s t : State, s.params.tokenFormat = .seq16 → exec .decodeC s = .next t →
    ∃ k, runSteps k { s with ip := 0, op := 0, seq := .token } = .next t

/-! ### Reconstruction -/

/-- R143: ADDB completes: one byte of `REF`, modulo 256. -/
def Obligations.AddbAddsModulo : Prop :=
  ∀ (i : Nat) (s : State) (r d : Byte), readByte .ref i s = .ok r → readByte .dec i s = .ok d →
    ∃ t v, exec (.addb i) s = .next t ∧ t = { s with ref := t.ref } ∧
      readByte .ref i t = .ok v ∧ v.toNat = (r.toNat + d.toNat) % 256 ∧
      (∀ a, a ≠ i → readByte .ref a t = readByte .ref a s)

/-- R144: SUBB completes: one byte of `REF`, modulo 256. -/
def Obligations.SubbSubtractsModulo : Prop :=
  ∀ (i : Nat) (s : State) (r d : Byte), readByte .ref i s = .ok r → readByte .dec i s = .ok d →
    ∃ t v, exec (.subb i) s = .next t ∧ t = { s with ref := t.ref } ∧
      readByte .ref i t = .ok v ∧ v.toNat = (r.toNat + 256 - d.toNat) % 256 ∧
      (∀ a, a ≠ i → readByte .ref a t = readByte .ref a s)

/-- R145, R142: RECON.D completes: every Frame byte is changed by its delta byte, in the direction of its sign bit.
The stage change is R171's; where the index `i` and the sequencer stand afterwards is the model's own (log entries 8, 9). -/
def Obligations.DeltaReconstructsEveryByte : Prop :=
  ∀ s : State, (∀ a, a < s.n + bitmapBytes s.n → Readable .dec a s) →
    ∃ t, exec .reconD s = .next t ∧
      t = { s with i := t.i, seq := t.seq, fsm := .presenting, presented := false, ref := t.ref } ∧
      (∀ i r d b, i < s.n → readByte .ref i s = .ok r → readByte .dec i s = .ok d →
        readByte .dec (s.n + i / 8) s = .ok b →
        readByte .ref i t = .ok (if b.getLsbD (i % 8) then r - d else r + d))

/-- R146: RECON.R completes: the decoded bytes replace the frame, whatever it held. The stage change is R171's; where the
index `i` and the sequencer stand afterwards is the model's own (log entries 8, 9). -/
def Obligations.ReplaceCopiesDecoded : Prop :=
  ∀ s : State, (∀ a, a < s.n → Readable .dec a s) →
    ∃ t, exec .reconR s = .next t ∧
      t = { s with i := t.i, seq := t.seq, fsm := .presenting, presented := false, ref := t.ref } ∧
      (∀ i, i < s.n → readByte .ref i t = readByte .dec i s)

/-- R58, R147: RECON.D reads nothing but the delta bytes and one sign bit for each Frame byte: two buffers that agree there, and
differ in the padding bits or elsewhere, give the same frame. -/
def Obligations.PaddingBitsAreIgnored : Prop :=
  ∀ s s' t t' : State, s'.n = s.n → s'.ref = s.ref →
    (∀ i, i < s.n → readByte .dec i s' = readByte .dec i s) →
    (∀ i b b', i < s.n → readByte .dec (s.n + i / 8) s = .ok b → readByte .dec (s.n + i / 8) s' = .ok b' →
      b.getLsbD (i % 8) = b'.getLsbD (i % 8)) →
    exec .reconD s = .next t → exec .reconD s' = .next t' → t'.ref = t.ref

/-- R149: encoding a frame against the reference with any bitmap, then reconstructing, reproduces the frame. -/
def Obligations.RoundTripReproducesFrame : Prop :=
  ∀ (s : State) (old frame bitmap : List Byte), contents .ref s = .ok old → frame.length = s.n →
    bitmap.length = bitmapBytes s.n → contents .dec s = .ok (encodeDelta s.n old frame bitmap) →
    ∃ t, exec .reconD s = .next t ∧ contents .ref t = .ok frame

/-! ### The controller -/

/-- R162, R231, R232: START with an accepted configuration opens a session with a zero frame and one acknowledgment. -/
def Obligations.StartOpensSession : Prop :=
  ∀ (cfg : SessionConfig) (s : State), cfg.w ≠ 0 → cfg.h ≠ 0 → decodedBytes cfg ≤ s.params.maxDecodedBytes →
    ∃ t, exec (.start cfg) s = .next t ∧
      t.status = .active ∧ t.fsm = .awaitingFrame ∧ t.awaitingFrame = true ∧ t.cfg = cfg ∧
      t.n = cfg.w.toNat * cfg.h.toNat * 3 ∧ t.m = (t.n + 7) / 8 ∧
      t.l = (if cfg.delta then t.n + t.m else t.n) ∧
      (∀ a, a < t.n → readByte .ref a t = .ok 0x00) ∧
      t.trace = s.trace ++ [.ack s.params.ackSentinel]

/-- R163: START with a refused configuration terminates with ConfigRefused. (That it writes nothing else is log entry 15, that
the sequencer ends idle log entry 8.) -/
def Obligations.StartRefusesConfiguration : Prop :=
  ∀ (cfg : SessionConfig) (s : State), cfg.w = 0 ∨ cfg.h = 0 ∨ s.params.maxDecodedBytes < decodedBytes cfg →
    exec (.start cfg) s =
      .next { s with status := .terminated .configRefused, seq := .idle, trace := s.trace ++ [.fail .configRefused] }

/-- R41: nothing but the output trace goes from one session into the next: two states that agree on the parameters, on the
environment's schedule and on the count of free values start the same session. (That the values R39 leaves unspecified
are free values is log entry 4.) -/
def Obligations.StartCarriesNothingOver : Prop :=
  ∀ (cfg : SessionConfig) (s s' t t' : State), s'.params = s.params → s'.inputs = s.inputs → s'.draws = s.draws →
    acceptable cfg s.params = true → exec (.start cfg) s = .next t → exec (.start cfg) s' = .next t' →
    t' = { t with trace := t'.trace }

/-- R170: RECV latches a message that fits, and refuses one that does not with SizeMismatch. (That the registers it does not
write keep their values between cycles is log entry 5.) -/
def Obligations.RecvLatchesMessage : Prop :=
  ∀ (bytes : List Byte) (s : State),
    ((∀ bound, s.params.maxMessageBytes = some bound → bytes.length ≤ bound) →
      ∃ t, exec (.recv bytes) s = .next t ∧
        t = { s with msg := t.msg, c := bytes.length, fsm := .decompressing } ∧
        contents .msg t = .ok bytes ∧ t.awaitingFrame = false) ∧
    (∀ bound, s.params.maxMessageBytes = some bound → bound < bytes.length →
      Raises (exec (.recv bytes) s) s .sizeMismatch)

/-- R172: PRESENT hands over the dimensions and a copy of all `N` bytes of `REF`, in address order (R99). -/
def Obligations.PresentHandsOverFrame : Prop :=
  ∀ s : State, ∃ bytes, contents .ref s = .ok bytes ∧ bytes.length = s.n ∧
    exec .present s =
      .next { s with presented := true, trace := s.trace ++ [.present s.cfg.w s.cfg.h bytes] }

/-- R173: ACK emits one acknowledgment and goes back to AwaitingFrame. (That the registers it does not write keep their values
between cycles is log entry 5.) -/
def Obligations.AckReturnsToWaiting : Prop :=
  ∀ s : State, ∃ t, exec .ack s = .next t ∧
    t = { s with fsm := .awaitingFrame, trace := s.trace ++ [.ack s.params.ackSentinel] } ∧
    (s.status = .active → t.awaitingFrame = true)

/-- R174, R200: ABORT records the kind and reports it; nothing of the machine's other state changes (the sequencer's position
is the model's own, log entry 8). -/
def Obligations.AbortTerminatesSession : Prop :=
  ∀ (kind : ErrorKind) (s : State),
    exec (.abort kind) s =
      .next { s with status := .terminated kind, seq := .idle, trace := s.trace ++ [.fail kind] }

/-- R190: the numeric codes of the error kinds, none of them 0. (That the failure port shows the code as a level while the status is
terminated is the model's choice, log entry 19.) -/
def Obligations.ErrorCodesAsTabled : Prop :=
  errorCode .malformedStream = 1 ∧ errorCode .truncatedInput = 2 ∧ errorCode .sizeMismatch = 3 ∧
  errorCode .protocolViolation = 4 ∧ errorCode .channelClosed = 5 ∧ errorCode .timeout = 6 ∧
  errorCode .configRefused = 7 ∧
  (∀ (kind : ErrorKind) (s : State), (s.takeError kind).failPort = errorCode kind ∧ errorCode kind ≠ 0)

/-! ### Steps

The schedule of the environment's events is the model's own (log entry 6): what a step takes of it is said by
`SlotsTakenInOrder`, and left open in the other statements. -/

/-- A step inside a stage runs the operation that the token byte, the end of the message or the sign bit selects (R93, R97, R117,
R142), and the loop's end closes the stage (R145). (The positions inside DECODE.C are those of SEQ16, which `Inv` says.) -/
def Obligations.StepRunsDecodedOperation : Prop :=
  ∀ s : State,
    (∀ t, s.seq = .token → readByte .msg s.ip s = .ok t → step s = exec (decode (.literalPart t)) s) ∧
    (∀ t, s.seq = .backRef t → s.ip < s.c → step s = exec (decode (.backRefPart t)) s) ∧
    (s.seq = .token ∨ (∃ t, s.seq = .backRef t) → s.c ≤ s.ip → step s = exec (decode .boundary) s) ∧
    (∀ b, s.seq = .delta → s.i < s.n → readByte .dec (s.n + s.i / 8) s = .ok b →
      step s = exec (decode (.signBit (b.getLsbD (s.i % 8)) s.i)) { s with i := s.i + 1 }) ∧
    (s.seq = .delta → s.n ≤ s.i → step s = .next { s with seq := .idle, fsm := .presenting, presented := false })

/-- Where the sequencer, the model's own field (log entry 8), and the index `i` (log entry 9) stand after an operation of a stage: at
the next part of the sequence (R112), or idle with the error taken. -/
def Obligations.StageMovesOn : Prop :=
  ∀ s t : State,
    (∀ ll mm, exec (.lit ll mm) s = .next t →
      t.seq = .backRef (tokenByte ll mm) ∨ (t.seq = .idle ∧ ∃ kind, t.status = .terminated kind)) ∧
    (∀ mm, exec (.litx mm) s = .next t →
      t.seq = .backRef (tokenByte 15 mm) ∨ (t.seq = .idle ∧ ∃ kind, t.status = .terminated kind)) ∧
    (∀ mm, exec (.ref mm) s = .next t → t.seq = .token ∨ (t.seq = .idle ∧ ∃ kind, t.status = .terminated kind)) ∧
    (exec .refx s = .next t → t.seq = .token ∨ (t.seq = .idle ∧ ∃ kind, t.status = .terminated kind)) ∧
    (exec .decodeP s = .next t → t.seq = .idle) ∧
    (exec .reconD s = .next t ∨ exec .reconR s = .next t → t.seq = .idle ∧ t.i = s.n)

/-- The environment's schedule (log entry 6): between stages every step takes one slot, inside a stage none. -/
def Obligations.SlotsTakenInOrder : Prop :=
  ∀ s t : State, step s = .next t →
    (s.seq = .idle → t.inputs = s.inputs.tail) ∧ (s.seq ≠ .idle → t.inputs = s.inputs)

/-- R171: with no event delivered, the enabled internal step is the stage that the state machine and the mode flags select. -/
def Obligations.StepRunsSelectedStage : Prop :=
  ∀ s : State, s.seq = .idle → s.status = .active → s.inputs = [] ∨ (∃ rest, s.inputs = .quiet :: rest) →
    (s.fsm = .decompressing →
      step s = exec (if s.cfg.compression then .decodeC else .decodeP) { s with inputs := s.inputs.tail }) ∧
    (s.fsm = .reconstructing →
      step s = exec (if s.cfg.delta then .reconD else .reconR) { s with inputs := s.inputs.tail }) ∧
    (s.fsm = .presenting → s.presented = false → step s = exec .present { s with inputs := s.inputs.tail }) ∧
    (s.fsm = .presenting → s.presented = true → step s = exec .ack { s with inputs := s.inputs.tail })

/-- R164: a session start is accepted in every status and state, and a message is received while one is awaited. -/
def Obligations.StepAcceptsSessionStart : Prop :=
  ∀ (s : State) (rest : List Slot), s.seq = .idle →
    (∀ cfg, s.inputs = .event (.sessionStart cfg) :: rest → step s = exec (.start cfg) { s with inputs := rest }) ∧
    (∀ bytes, s.inputs = .event (.message bytes) :: rest → s.awaitingFrame = true →
      step s = exec (.recv bytes) { s with inputs := rest })

/-- R175, R174: a message while the block is not waiting for one is `ABORT(ProtocolViolation)`, and this step presents and acknowledges
nothing. (What no later step does is `TerminationIsSticky`.) -/
def Obligations.EarlyMessageViolatesProtocol : Prop :=
  ∀ (s : State) (bytes : List Byte) (rest : List Slot), s.seq = .idle → s.status = .active → s.fsm ≠ .awaitingFrame →
    s.inputs = .event (.message bytes) :: rest →
    ∃ t, step s = .next t ∧
      t = { s with status := .terminated .protocolViolation, trace := s.trace ++ [.fail .protocolViolation],
                   inputs := t.inputs }

/-- R176: the channel's closing ends an active session in every state. -/
def Obligations.ClosedChannelTerminates : Prop :=
  ∀ (s : State) (rest : List Slot), s.seq = .idle → s.status = .active → s.inputs = .event .channelClosed :: rest →
    ∃ t, step s = .next t ∧
      t = { s with status := .terminated .channelClosed, trace := s.trace ++ [.fail .channelClosed], inputs := t.inputs }

/-- R177: a timeout ends the session in AwaitingFrame and is ignored in any other state. -/
def Obligations.TimeoutOnlyWhileWaiting : Prop :=
  ∀ (s : State) (rest : List Slot), s.seq = .idle → s.status = .active → s.inputs = .event .timeoutExpired :: rest →
    (s.fsm = .awaitingFrame →
      ∃ t, step s = .next t ∧
        t = { s with status := .terminated .timeout, trace := s.trace ++ [.fail .timeout], inputs := t.inputs }) ∧
    (s.fsm ≠ .awaitingFrame → ∃ t, step s = .next t ∧ t = { s with inputs := t.inputs })

/-- R178: without an active session every event but a session start changes nothing and emits nothing. -/
def Obligations.DeadSessionIgnoresEvents : Prop :=
  ∀ (s : State) (e : InEvent) (rest : List Slot), s.seq = .idle → s.status ≠ .active →
    (∀ cfg, e ≠ .sessionStart cfg) → s.inputs = .event e :: rest →
    ∃ t, step s = .next t ∧ t = { s with inputs := t.inputs }

/-- R210, R200: in AwaitingFrame, and without an active session, no internal step is enabled: the block waits (that a waiting
step leaves the state as it is, and takes a quiet slot from the schedule, is log entry 11). -/
def Obligations.WaitingKeepsState : Prop :=
  ∀ s : State, s.seq = .idle → s.status ≠ .active ∨ s.fsm = .awaitingFrame →
    s.inputs = [] ∨ (∃ rest, s.inputs = .quiet :: rest) → step s = .next { s with inputs := s.inputs.tail }

/-- R201, R202: from a terminated session no step presents a frame, acknowledges one or revives the session, unless a session
start is delivered. -/
def Obligations.TerminationIsSticky : Prop :=
  ∀ (s t : State) (kind : ErrorKind), Inv s → s.status = .terminated kind →
    (∀ cfg rest, s.inputs ≠ .event (.sessionStart cfg) :: rest) → step s = .next t →
    t = { s with inputs := s.inputs.tail }

/-! ### Reset, invariants, whole-machine rules -/

/-- R230: after hardware reset there is no session and the output trace is empty. -/
def Obligations.ResetHasNoSession : Prop :=
  State.reset.status = .noSession ∧ State.reset.trace = [] ∧ State.reset.awaitingFrame = false

/-- The invariant holds after reset. -/
def Obligations.ResetMeetsInv : Prop := Inv State.reset

/-- R70: from every state that meets the invariant, a step answers a next state, and that state meets it: no access leaves its
space, no byte without a value is read, and the memories stay canonical. -/
def Obligations.StepKeepsInv : Prop :=
  ∀ s : State, Inv s → ∃ t, step s = .next t ∧ Inv t

/-- R36, R65: a step emits at most one event; an acknowledgment only after its frame's presentation or at a session start, a
presentation only of the whole frame after reconstruction, and a failure with the session's end and the frame kept. -/
def Obligations.EveryOutputHasItsCause : Prop :=
  ∀ s t : State, step s = .next t →
    t.trace = s.trace ∨
    (t.trace = s.trace ++ [.ack s.params.ackSentinel] ∧ t.awaitingFrame = true ∧ s.seq = .idle ∧
      ((s.status = .active ∧ s.fsm = .presenting ∧ s.presented = true) ∨
        ∃ cfg rest, s.inputs = .event (.sessionStart cfg) :: rest)) ∨
    (∃ bytes, t.trace = s.trace ++ [.present s.cfg.w s.cfg.h bytes] ∧ contents .ref s = .ok bytes ∧ t.ref = s.ref ∧
      s.seq = .idle ∧ s.status = .active ∧ s.fsm = .presenting ∧ s.presented = false ∧ t.presented = true) ∨
    (∃ kind, t.trace = s.trace ++ [.fail kind] ∧ t.status = .terminated kind ∧ t.ref = s.ref)

/-- R32: `REF` is written only by a session start and by the reconstruct stage. -/
def Obligations.FrameWrittenOnlyByOwners : Prop :=
  ∀ s t : State, step s = .next t →
    t.ref = s.ref ∨ s.seq = .delta ∨
    (s.seq = .idle ∧ s.status = .active ∧ s.fsm = .reconstructing) ∨
    (s.seq = .idle ∧ ∃ cfg rest, s.inputs = .event (.sessionStart cfg) :: rest)

/-- R235: the configuration and the sizes change only with a session start, and the implementation parameters never. -/
def Obligations.ConfigurationFixedInSession : Prop :=
  ∀ s t : State, step s = .next t →
    t.params = s.params ∧
      ((t.cfg = s.cfg ∧ t.n = s.n ∧ t.m = s.m ∧ t.l = s.l) ∨
        (s.seq = .idle ∧ ∃ cfg rest, s.inputs = .event (.sessionStart cfg) :: rest ∧ t.cfg = cfg ∧ t.status = .active))

/-- R123, R151, R248: from a received message the block reaches an acknowledgment or the session's end in a finite number of steps,
with no further input. (That the number is four, one step for one row of R161, and that the sequencer ends idle, is log entry 8,
DEDUCED.) -/
def Obligations.CycleEndsInAckOrAbort : Prop :=
  ∀ s : State, Inv s → s.seq = .idle → s.status = .active → s.fsm = .decompressing → s.inputs = [] →
    ∃ t, runSteps 4 s = .next t ∧ t.seq = .idle ∧
      ((t.awaitingFrame = true ∧
          ∃ frame, t.trace = s.trace ++ [.present s.cfg.w s.cfg.h frame, .ack s.params.ackSentinel]) ∨
        ∃ kind, t.status = .terminated kind ∧ t.trace = s.trace ++ [.fail kind])

/-- R180: with no event between RECV and ACK the cycle is one step of the atomic view: the message is decoded, the frame
reconstructed, presented, then acknowledged; or the first error ends the session with the frame kept. (The counts of five and two steps
are log entry 8, the slots taken are log entry 6, and that C and `presented` keep their values after ACK is log entry 5.) -/
def Obligations.CycleMatchesAtomicView : Prop :=
  ∀ (s : State) (message : List Byte) (rest : List Slot) (old : List Byte), Inv s → s.seq = .idle →
    s.awaitingFrame = true → fitsMessage message.length s.params = true → s.inputs = cycleSlots message ++ rest →
    contents .ref s = .ok old →
    match decodeMessage s.params.tokenFormat s.cfg.compression message s.l with
    | .ok decoded => ∃ t, runSteps 5 s = .next t ∧
        t = { s with c := message.length, ip := t.ip, op := t.op, i := t.i, presented := true, msg := t.msg, dec := t.dec,
                     ref := t.ref, inputs := rest,
                     trace := s.trace ++ lockStepOutputs s [reconstruct s.cfg.delta s.n old decoded] } ∧
        contents .ref t = .ok (reconstruct s.cfg.delta s.n old decoded)
    | .error kind => ∃ t, runSteps 2 s = .next t ∧ t.status = .terminated kind ∧
        t.trace = s.trace ++ [.fail kind] ∧ t.ref = s.ref

/-- R179, R66: a session that receives messages in lock-step, each of which decodes, answers every one: the trace grows by each
frame's presentation and then its acknowledgment, in receipt order, and each frame is reconstructed on the one before. (Five steps a
message are log entry 8, and the slots of its cycle are log entry 6.) -/
def Obligations.LockStepAnswersEveryMessage : Prop :=
  ∀ (messages decoded : List (List Byte)) (s : State) (old : List Byte), Inv s → s.seq = .idle →
    s.awaitingFrame = true → s.inputs = messages.flatMap cycleSlots → contents .ref s = .ok old →
    (∀ message ∈ messages, fitsMessage message.length s.params = true) →
    List.Forall₂ (fun message d => decodeMessage s.params.tokenFormat s.cfg.compression message s.l = .ok d)
      messages decoded →
    ∃ t, runSteps (5 * messages.length) s = .next t ∧ t.awaitingFrame = true ∧ t.inputs = [] ∧
      t.trace = s.trace ++ lockStepOutputs s (frameSequence s.cfg.delta s.n old decoded)

/-- R54: the frame layout is dense: every channel of every pixel has an address below `N`, no two share one, and every address
below `N` is used. -/
def Obligations.FrameLayoutIsDense : Prop :=
  ∀ cfg : SessionConfig,
    (∀ x y ch, x < cfg.w.toNat → y < cfg.h.toNat → ch < 3 → pixelAddress cfg.w.toNat x y ch < frameBytes cfg) ∧
    (∀ x y ch x' y' ch', x < cfg.w.toNat → x' < cfg.w.toNat → ch < 3 → ch' < 3 →
      pixelAddress cfg.w.toNat x y ch = pixelAddress cfg.w.toNat x' y' ch' → x = x' ∧ y = y' ∧ ch = ch') ∧
    (∀ a, a < frameBytes cfg →
      ∃ x y ch, x < cfg.w.toNat ∧ y < cfg.h.toNat ∧ ch < 3 ∧ pixelAddress cfg.w.toNat x y ch = a)

/-- R84, R91: whatever the token format, a parsed back-reference copies at least one byte; under SEQ16 at least four. -/
def Obligations.ParsedBackReferencesCopyBytes : Prop :=
  (∀ (format : TokenFormat) (message : List Byte) (offset length : Nat),
    .backRef offset length ∈ (parserOf format message).tokens → 1 ≤ length) ∧
  (∀ (message : List Byte) (offset length : Nat), .backRef offset length ∈ (parseSeq16 message).tokens → 4 ≤ length)
end

