-- ==== Sys2Proof/Laws/Decode.lean ====
section
/-! SUPPORT. The fields of a token byte, the assembly of offsets and lengths, and the decoder's choice at each token byte. -/

namespace Sys2Proof

@[simp] theorem tokenLL_tokenByte (ll mm : Nibble) : tokenLL (tokenByte ll mm) = ll := by
  revert ll mm; decide

@[simp] theorem tokenMM_tokenByte (ll mm : Nibble) : tokenMM (tokenByte ll mm) = mm := by
  revert ll mm; decide

@[simp] theorem tokenByte_fields (t : Byte) : tokenByte (tokenLL t) (tokenMM t) = t := by
  revert t; decide

/-- R90: the first byte is bits 7:0, the second bits 15:8. -/
theorem assembleOffset_eq (lo hi : Byte) : assembleOffset lo hi = lo.toNat + 256 * hi.toNat := by
  unfold assembleOffset
  have hlo : lo.toNat < 2 ^ 8 := lo.isLt
  rw [Nat.or_comm, ← Nat.shiftLeft_add_eq_or_of_lt hlo, Nat.shiftLeft_eq]
  omega

/-- R51: bit `i % 8` of the bitmap byte. -/
theorem signOf_eq (b : Byte) (i : Nat) : signOf b i = b.getLsbD (i % 8) := by
  have h : ∀ (b : Byte) (r : Fin 8), (decide ((b >>> (r : Nat)) &&& 1 = 1)) = b.getLsbD r := by decide
  have := h b ⟨i % 8, Nat.mod_lt _ (by omega)⟩
  simpa [signOf] using this

theorem decodeLiteralPart_litx {t : Byte} (h : tokenLL t = 15) : decodeLiteralPart t = .litx (tokenMM t) := if_pos h
theorem decodeLiteralPart_lit {t : Byte} (h : tokenLL t ≠ 15) : decodeLiteralPart t = .lit (tokenLL t) (tokenMM t) :=
  if_neg h
theorem decodeBackRefPart_refx {t : Byte} (h : tokenMM t = 15) : decodeBackRefPart t = .refx := if_pos h
theorem decodeBackRefPart_ref {t : Byte} (h : tokenMM t ≠ 15) : decodeBackRefPart t = .ref (tokenMM t) := if_neg h

/-- The decoder never gives an instruction that no encoding can select. -/
theorem decode_wellFormed (sel : Selector) : WellFormed (decode sel) = true := by
  cases sel with
  | literalPart t =>
    by_cases h : tokenLL t = 15
    · simp [decode, decodeLiteralPart_litx h, MicroOp.toInstr, WellFormed]
    · simpa [decode, decodeLiteralPart_lit h, MicroOp.toInstr, WellFormed] using h
  | backRefPart t =>
    by_cases h : tokenMM t = 15
    · simp [decode, decodeBackRefPart_refx h, MicroOp.toInstr, WellFormed]
    · simpa [decode, decodeBackRefPart_ref h, MicroOp.toInstr, WellFormed] using h
  | decodeMode c d => cases c <;> rfl
  | reconMode c d => cases d <;> rfl
  | signBit sign i => cases sign <;> rfl
  | _ => rfl

/-! ### Length extensions on lists -/

@[simp] theorem Token.wellFormed_literal (bytes : List Byte) : (Token.literal bytes).wellFormed = true := rfl

@[simp] theorem Token.wellFormed_backRef (offset length : Nat) :
    (Token.backRef offset length).wellFormed = decide (1 ≤ length) := rfl

@[simp] theorem Token.lengthen_wellFormed (tk : Token) : tk.lengthen.wellFormed = true := by
  cases tk <;> simp [Token.lengthen]

/-- Lengthening loses nothing: it reaches every token that R84 allows. -/
theorem Token.lengthen_surjective {tk : Token} (h : tk.wellFormed = true) : ∃ raw : Token, raw.lengthen = tk := by
  cases tk with
  | literal bytes => exact ⟨.literal bytes, rfl⟩
  | backRef o n =>
    simp only [Token.wellFormed_backRef, decide_eq_true_eq] at h
    exact ⟨.backRef o (n - 1), by simp [Token.lengthen]; omega⟩

/-- The parsers of the other formats yield streams that R84 allows. -/
theorem parseOther_wellFormed (format : Nat) (message : List Byte) : (parseOther format message).wellFormed = true := by
  simp [parseOther, TokenStream.wellFormed]

theorem sumExtension_length {acc n : Nat} {bytes rest : List Byte} (h : sumExtension acc bytes = some (n, rest)) :
    rest.length < bytes.length := by
  induction bytes generalizing acc with
  | nil => simp [sumExtension] at h
  | cons e bytes ih =>
    rw [sumExtension] at h
    split at h
    · have := ih h
      simp only [List.length_cons]; omega
    · simp only [Option.some.injEq, Prod.mk.injEq] at h
      rw [← h.2]; simp

/-- The bytes left after a length extension are the end of the bytes before it. -/
theorem sumExtension_rest {acc n : Nat} {bytes rest : List Byte} (h : sumExtension acc bytes = some (n, rest)) :
    rest = bytes.drop (bytes.length - rest.length) := by
  induction bytes generalizing acc with
  | nil => simp [sumExtension] at h
  | cons e bytes ih =>
    have hlt := sumExtension_length h
    rw [sumExtension] at h
    split at h
    · have hlt' := sumExtension_length h
      have := ih h
      rw [show (e :: bytes).length - rest.length = (bytes.length - rest.length) + 1 by simp only [List.length_cons]; omega]
      simpa using this
    · simp only [Option.some.injEq, Prod.mk.injEq] at h
      rw [← h.2]
      simp

/-- A run of `0xFF` bytes and one other byte (R87). -/
theorem sumExtension_run (acc k : Nat) (e : Byte) (he : e ≠ 0xFF) (rest : List Byte) :
    sumExtension acc (List.replicate k 0xFF ++ e :: rest) = some (acc + 255 * k + e.toNat, rest) := by
  induction k generalizing acc with
  | zero => rw [List.replicate_zero, List.nil_append, sumExtension, if_neg he, Nat.mul_zero, Nat.add_zero]
  | succ k ih =>
    rw [List.replicate_succ, List.cons_append, sumExtension, if_pos rfl, ih]
    simp only [Option.some.injEq, Prod.mk.injEq, and_true]
    omega

theorem lengthExtension_length (n : Nat) : (lengthExtension n).length = if n < 15 then 0 else (n - 15) / 255 + 1 := by
  unfold lengthExtension
  split <;> simp

end Sys2Proof
end

