-- ==== Sys2Proof/Laws/State.lean ====
section
/-! SUPPORT. One lemma for each field of `State` under each named update, so that no proof unfolds an update. -/

namespace Sys2Proof.Machine

/-! ### `State.emit` -/

@[simp] theorem State.emit_params (s : State) (e : OutEvent) : (s.emit e).params = s.params := rfl
@[simp] theorem State.emit_status (s : State) (e : OutEvent) : (s.emit e).status = s.status := rfl
@[simp] theorem State.emit_fsm (s : State) (e : OutEvent) : (s.emit e).fsm = s.fsm := rfl
@[simp] theorem State.emit_presented (s : State) (e : OutEvent) : (s.emit e).presented = s.presented := rfl
@[simp] theorem State.emit_cfg (s : State) (e : OutEvent) : (s.emit e).cfg = s.cfg := rfl
@[simp] theorem State.emit_n (s : State) (e : OutEvent) : (s.emit e).n = s.n := rfl
@[simp] theorem State.emit_m (s : State) (e : OutEvent) : (s.emit e).m = s.m := rfl
@[simp] theorem State.emit_l (s : State) (e : OutEvent) : (s.emit e).l = s.l := rfl
@[simp] theorem State.emit_c (s : State) (e : OutEvent) : (s.emit e).c = s.c := rfl
@[simp] theorem State.emit_ip (s : State) (e : OutEvent) : (s.emit e).ip = s.ip := rfl
@[simp] theorem State.emit_op (s : State) (e : OutEvent) : (s.emit e).op = s.op := rfl
@[simp] theorem State.emit_i (s : State) (e : OutEvent) : (s.emit e).i = s.i := rfl
@[simp] theorem State.emit_seq (s : State) (e : OutEvent) : (s.emit e).seq = s.seq := rfl
@[simp] theorem State.emit_msg (s : State) (e : OutEvent) : (s.emit e).msg = s.msg := rfl
@[simp] theorem State.emit_dec (s : State) (e : OutEvent) : (s.emit e).dec = s.dec := rfl
@[simp] theorem State.emit_ref (s : State) (e : OutEvent) : (s.emit e).ref = s.ref := rfl
@[simp] theorem State.emit_trace (s : State) (e : OutEvent) : (s.emit e).trace = s.trace ++ [e] := rfl
@[simp] theorem State.emit_inputs (s : State) (e : OutEvent) : (s.emit e).inputs = s.inputs := rfl
@[simp] theorem State.emit_draws (s : State) (e : OutEvent) : (s.emit e).draws = s.draws := rfl

/-! ### `State.takeError` -/

@[simp] theorem State.takeError_params (s : State) (k : ErrorKind) : (s.takeError k).params = s.params := rfl
@[simp] theorem State.takeError_status (s : State) (k : ErrorKind) : (s.takeError k).status = .terminated k := rfl
@[simp] theorem State.takeError_fsm (s : State) (k : ErrorKind) : (s.takeError k).fsm = s.fsm := rfl
@[simp] theorem State.takeError_presented (s : State) (k : ErrorKind) : (s.takeError k).presented = s.presented := rfl
@[simp] theorem State.takeError_cfg (s : State) (k : ErrorKind) : (s.takeError k).cfg = s.cfg := rfl
@[simp] theorem State.takeError_n (s : State) (k : ErrorKind) : (s.takeError k).n = s.n := rfl
@[simp] theorem State.takeError_m (s : State) (k : ErrorKind) : (s.takeError k).m = s.m := rfl
@[simp] theorem State.takeError_l (s : State) (k : ErrorKind) : (s.takeError k).l = s.l := rfl
@[simp] theorem State.takeError_c (s : State) (k : ErrorKind) : (s.takeError k).c = s.c := rfl
@[simp] theorem State.takeError_ip (s : State) (k : ErrorKind) : (s.takeError k).ip = s.ip := rfl
@[simp] theorem State.takeError_op (s : State) (k : ErrorKind) : (s.takeError k).op = s.op := rfl
@[simp] theorem State.takeError_i (s : State) (k : ErrorKind) : (s.takeError k).i = s.i := rfl
@[simp] theorem State.takeError_seq (s : State) (k : ErrorKind) : (s.takeError k).seq = .idle := rfl
@[simp] theorem State.takeError_msg (s : State) (k : ErrorKind) : (s.takeError k).msg = s.msg := rfl
@[simp] theorem State.takeError_dec (s : State) (k : ErrorKind) : (s.takeError k).dec = s.dec := rfl
@[simp] theorem State.takeError_ref (s : State) (k : ErrorKind) : (s.takeError k).ref = s.ref := rfl
@[simp] theorem State.takeError_trace (s : State) (k : ErrorKind) : (s.takeError k).trace = s.trace ++ [.fail k] := rfl
@[simp] theorem State.takeError_inputs (s : State) (k : ErrorKind) : (s.takeError k).inputs = s.inputs := rfl
@[simp] theorem State.takeError_draws (s : State) (k : ErrorKind) : (s.takeError k).draws = s.draws := rfl

/-! ### `State.enterReconstructing` -/

@[simp] theorem State.enterReconstructing_params (s : State) : (s.enterReconstructing).params = s.params := rfl
@[simp] theorem State.enterReconstructing_status (s : State) : (s.enterReconstructing).status = s.status := rfl
@[simp] theorem State.enterReconstructing_fsm (s : State) : (s.enterReconstructing).fsm = .reconstructing := rfl
@[simp] theorem State.enterReconstructing_presented (s : State) : (s.enterReconstructing).presented = s.presented := rfl
@[simp] theorem State.enterReconstructing_cfg (s : State) : (s.enterReconstructing).cfg = s.cfg := rfl
@[simp] theorem State.enterReconstructing_n (s : State) : (s.enterReconstructing).n = s.n := rfl
@[simp] theorem State.enterReconstructing_m (s : State) : (s.enterReconstructing).m = s.m := rfl
@[simp] theorem State.enterReconstructing_l (s : State) : (s.enterReconstructing).l = s.l := rfl
@[simp] theorem State.enterReconstructing_c (s : State) : (s.enterReconstructing).c = s.c := rfl
@[simp] theorem State.enterReconstructing_ip (s : State) : (s.enterReconstructing).ip = s.ip := rfl
@[simp] theorem State.enterReconstructing_op (s : State) : (s.enterReconstructing).op = s.op := rfl
@[simp] theorem State.enterReconstructing_i (s : State) : (s.enterReconstructing).i = s.i := rfl
@[simp] theorem State.enterReconstructing_seq (s : State) : (s.enterReconstructing).seq = .idle := rfl
@[simp] theorem State.enterReconstructing_msg (s : State) : (s.enterReconstructing).msg = s.msg := rfl
@[simp] theorem State.enterReconstructing_dec (s : State) : (s.enterReconstructing).dec = s.dec := rfl
@[simp] theorem State.enterReconstructing_ref (s : State) : (s.enterReconstructing).ref = s.ref := rfl
@[simp] theorem State.enterReconstructing_trace (s : State) : (s.enterReconstructing).trace = s.trace := rfl
@[simp] theorem State.enterReconstructing_inputs (s : State) : (s.enterReconstructing).inputs = s.inputs := rfl
@[simp] theorem State.enterReconstructing_draws (s : State) : (s.enterReconstructing).draws = s.draws := rfl

/-! ### `State.enterPresenting` -/

@[simp] theorem State.enterPresenting_params (s : State) : (s.enterPresenting).params = s.params := rfl
@[simp] theorem State.enterPresenting_status (s : State) : (s.enterPresenting).status = s.status := rfl
@[simp] theorem State.enterPresenting_fsm (s : State) : (s.enterPresenting).fsm = .presenting := rfl
@[simp] theorem State.enterPresenting_presented (s : State) : (s.enterPresenting).presented = false := rfl
@[simp] theorem State.enterPresenting_cfg (s : State) : (s.enterPresenting).cfg = s.cfg := rfl
@[simp] theorem State.enterPresenting_n (s : State) : (s.enterPresenting).n = s.n := rfl
@[simp] theorem State.enterPresenting_m (s : State) : (s.enterPresenting).m = s.m := rfl
@[simp] theorem State.enterPresenting_l (s : State) : (s.enterPresenting).l = s.l := rfl
@[simp] theorem State.enterPresenting_c (s : State) : (s.enterPresenting).c = s.c := rfl
@[simp] theorem State.enterPresenting_ip (s : State) : (s.enterPresenting).ip = s.ip := rfl
@[simp] theorem State.enterPresenting_op (s : State) : (s.enterPresenting).op = s.op := rfl
@[simp] theorem State.enterPresenting_i (s : State) : (s.enterPresenting).i = s.i := rfl
@[simp] theorem State.enterPresenting_seq (s : State) : (s.enterPresenting).seq = .idle := rfl
@[simp] theorem State.enterPresenting_msg (s : State) : (s.enterPresenting).msg = s.msg := rfl
@[simp] theorem State.enterPresenting_dec (s : State) : (s.enterPresenting).dec = s.dec := rfl
@[simp] theorem State.enterPresenting_ref (s : State) : (s.enterPresenting).ref = s.ref := rfl
@[simp] theorem State.enterPresenting_trace (s : State) : (s.enterPresenting).trace = s.trace := rfl
@[simp] theorem State.enterPresenting_inputs (s : State) : (s.enterPresenting).inputs = s.inputs := rfl
@[simp] theorem State.enterPresenting_draws (s : State) : (s.enterPresenting).draws = s.draws := rfl

/-! ### `State.setMem` -/

@[simp] theorem State.setMem_params (s : State) (sp : Space) (mem : Memory) : (s.setMem sp mem).params = s.params := by
  cases sp <;> rfl
@[simp] theorem State.setMem_status (s : State) (sp : Space) (mem : Memory) : (s.setMem sp mem).status = s.status := by
  cases sp <;> rfl
@[simp] theorem State.setMem_fsm (s : State) (sp : Space) (mem : Memory) : (s.setMem sp mem).fsm = s.fsm := by
  cases sp <;> rfl
@[simp] theorem State.setMem_presented (s : State) (sp : Space) (mem : Memory) : (s.setMem sp mem).presented = s.presented := by
  cases sp <;> rfl
@[simp] theorem State.setMem_cfg (s : State) (sp : Space) (mem : Memory) : (s.setMem sp mem).cfg = s.cfg := by
  cases sp <;> rfl
@[simp] theorem State.setMem_n (s : State) (sp : Space) (mem : Memory) : (s.setMem sp mem).n = s.n := by
  cases sp <;> rfl
@[simp] theorem State.setMem_m (s : State) (sp : Space) (mem : Memory) : (s.setMem sp mem).m = s.m := by
  cases sp <;> rfl
@[simp] theorem State.setMem_l (s : State) (sp : Space) (mem : Memory) : (s.setMem sp mem).l = s.l := by
  cases sp <;> rfl
@[simp] theorem State.setMem_c (s : State) (sp : Space) (mem : Memory) : (s.setMem sp mem).c = s.c := by
  cases sp <;> rfl
@[simp] theorem State.setMem_ip (s : State) (sp : Space) (mem : Memory) : (s.setMem sp mem).ip = s.ip := by
  cases sp <;> rfl
@[simp] theorem State.setMem_op (s : State) (sp : Space) (mem : Memory) : (s.setMem sp mem).op = s.op := by
  cases sp <;> rfl
@[simp] theorem State.setMem_i (s : State) (sp : Space) (mem : Memory) : (s.setMem sp mem).i = s.i := by
  cases sp <;> rfl
@[simp] theorem State.setMem_seq (s : State) (sp : Space) (mem : Memory) : (s.setMem sp mem).seq = s.seq := by
  cases sp <;> rfl
@[simp] theorem State.setMem_trace (s : State) (sp : Space) (mem : Memory) : (s.setMem sp mem).trace = s.trace := by
  cases sp <;> rfl
@[simp] theorem State.setMem_inputs (s : State) (sp : Space) (mem : Memory) : (s.setMem sp mem).inputs = s.inputs := by
  cases sp <;> rfl
@[simp] theorem State.setMem_draws (s : State) (sp : Space) (mem : Memory) : (s.setMem sp mem).draws = s.draws := by
  cases sp <;> rfl
@[simp] theorem State.setMem_msg_msg (s : State) (mem : Memory) : (s.setMem .msg mem).msg = mem := rfl
@[simp] theorem State.setMem_msg_dec (s : State) (mem : Memory) : (s.setMem .msg mem).dec = s.dec := rfl
@[simp] theorem State.setMem_msg_ref (s : State) (mem : Memory) : (s.setMem .msg mem).ref = s.ref := rfl
@[simp] theorem State.setMem_dec_msg (s : State) (mem : Memory) : (s.setMem .dec mem).msg = s.msg := rfl
@[simp] theorem State.setMem_dec_dec (s : State) (mem : Memory) : (s.setMem .dec mem).dec = mem := rfl
@[simp] theorem State.setMem_dec_ref (s : State) (mem : Memory) : (s.setMem .dec mem).ref = s.ref := rfl
@[simp] theorem State.setMem_ref_msg (s : State) (mem : Memory) : (s.setMem .ref mem).msg = s.msg := rfl
@[simp] theorem State.setMem_ref_dec (s : State) (mem : Memory) : (s.setMem .ref mem).dec = s.dec := rfl
@[simp] theorem State.setMem_ref_ref (s : State) (mem : Memory) : (s.setMem .ref mem).ref = mem := rfl

@[simp] theorem State.setMem_size (s : State) (sp sp' : Space) (mem : Memory) :
    (s.setMem sp mem).size sp' = s.size sp' := by
  cases sp <;> cases sp' <;> rfl

@[simp] theorem State.setMem_mem_same (s : State) (sp : Space) (mem : Memory) : (s.setMem sp mem).mem sp = mem := by
  cases sp <;> rfl

theorem State.setMem_mem_other (s : State) {sp sp' : Space} (mem : Memory) (h : sp' ≠ sp) :
    (s.setMem sp mem).mem sp' = s.mem sp' := by
  cases sp <;> cases sp' <;> first | rfl | exact absurd rfl h

@[simp] theorem State.mem_msg (s : State) : s.mem .msg = s.msg := rfl
@[simp] theorem State.mem_dec (s : State) : s.mem .dec = s.dec := rfl
@[simp] theorem State.mem_ref (s : State) : s.mem .ref = s.ref := rfl
@[simp] theorem State.size_msg (s : State) : s.size .msg = s.c := rfl
@[simp] theorem State.size_dec (s : State) : s.size .dec = s.l := rfl
@[simp] theorem State.size_ref (s : State) : s.size .ref = s.n := rfl

/-! ### `startSession` -/

@[simp] theorem startSession_params (cfg : SessionConfig) (s : State) :
    (startSession cfg s).params = s.params := rfl
@[simp] theorem startSession_status (cfg : SessionConfig) (s : State) :
    (startSession cfg s).status = .active := rfl
@[simp] theorem startSession_fsm (cfg : SessionConfig) (s : State) :
    (startSession cfg s).fsm = .awaitingFrame := rfl
@[simp] theorem startSession_presented (cfg : SessionConfig) (s : State) :
    (startSession cfg s).presented = Config.freeBool (s.draws + 4) := rfl
@[simp] theorem startSession_cfg (cfg : SessionConfig) (s : State) :
    (startSession cfg s).cfg = cfg := rfl
@[simp] theorem startSession_n (cfg : SessionConfig) (s : State) :
    (startSession cfg s).n = frameBytes cfg := rfl
@[simp] theorem startSession_m (cfg : SessionConfig) (s : State) :
    (startSession cfg s).m = bitmapBytes (frameBytes cfg) := rfl
@[simp] theorem startSession_l (cfg : SessionConfig) (s : State) :
    (startSession cfg s).l = decodedBytes cfg := rfl
@[simp] theorem startSession_c (cfg : SessionConfig) (s : State) :
    (startSession cfg s).c = freeLength s.params s.draws := rfl
@[simp] theorem startSession_ip (cfg : SessionConfig) (s : State) :
    (startSession cfg s).ip = freeUpTo (freeLength s.params s.draws) (s.draws + 1) := rfl
@[simp] theorem startSession_op (cfg : SessionConfig) (s : State) :
    (startSession cfg s).op = freeUpTo (decodedBytes cfg) (s.draws + 2) := rfl
@[simp] theorem startSession_i (cfg : SessionConfig) (s : State) :
    (startSession cfg s).i = freeUpTo (frameBytes cfg) (s.draws + 3) := rfl
@[simp] theorem startSession_seq (cfg : SessionConfig) (s : State) :
    (startSession cfg s).seq = .idle := rfl
@[simp] theorem startSession_msg (cfg : SessionConfig) (s : State) :
    (startSession cfg s).msg = [] := rfl
@[simp] theorem startSession_dec (cfg : SessionConfig) (s : State) :
    (startSession cfg s).dec = [] := rfl
@[simp] theorem startSession_ref (cfg : SessionConfig) (s : State) :
    (startSession cfg s).ref = [] := rfl
@[simp] theorem startSession_trace (cfg : SessionConfig) (s : State) :
    (startSession cfg s).trace = s.trace ++ [.ack s.params.ackSentinel] := rfl
@[simp] theorem startSession_inputs (cfg : SessionConfig) (s : State) :
    (startSession cfg s).inputs = s.inputs := rfl
@[simp] theorem startSession_draws (cfg : SessionConfig) (s : State) :
    (startSession cfg s).draws = s.draws + 5 := rfl

end Sys2Proof.Machine
end

