-- ==== Sys2Proof/Laws/Memory.lean ====
section
/-! SUPPORT. The laws of memory: a read after a write, what a write leaves alone, that every operation keeps the canonical form,
and that two canonical memories with the same bytes are the same data. -/

namespace Sys2Proof.Machine

/-! ### Lists of cells -/

theorem Memory.lookup_insert_same (mem : Memory) (a : Nat) (v : Byte) : (mem.insert a v).lookup a = some v := by
  induction mem with
  | nil => simp [Memory.insert, Memory.lookup]
  | cons x rest ih =>
    obtain ⟨b, w⟩ := x
    by_cases h1 : a < b
    · simp [Memory.insert, Memory.lookup, h1]
    · by_cases h2 : a = b
      · simp [Memory.insert, Memory.lookup, h2]
      · simp [Memory.insert, Memory.lookup, h1, h2, ih]

theorem Memory.lookup_insert_other (mem : Memory) {a x : Nat} (v : Byte) (h : x ≠ a) :
    (mem.insert a v).lookup x = mem.lookup x := by
  induction mem with
  | nil => simp [Memory.insert, Memory.lookup, h]
  | cons y rest ih =>
    obtain ⟨b, w⟩ := y
    by_cases h1 : a < b
    · simp [Memory.insert, Memory.lookup, h1, h]
    · by_cases h2 : a = b
      · subst h2; simp [Memory.insert, Memory.lookup, h]
      · simp [Memory.insert, Memory.lookup, h1, h2, ih]

theorem Memory.lookup_erase_same (mem : Memory) (a : Nat) : (mem.erase a).lookup a = none := by
  induction mem with
  | nil => rfl
  | cons y rest ih =>
    obtain ⟨b, w⟩ := y
    by_cases h : a = b <;> simp [Memory.erase, Memory.lookup, h]
    · simpa [h] using ih
    · simpa using ih

theorem Memory.lookup_erase_other (mem : Memory) {a x : Nat} (h : x ≠ a) : (mem.erase a).lookup x = mem.lookup x := by
  induction mem with
  | nil => rfl
  | cons y rest ih =>
    obtain ⟨b, w⟩ := y
    by_cases h1 : a = b
    · subst h1; simp [Memory.erase, Memory.lookup, h, ih]
    · simp [Memory.erase, Memory.lookup, h1, ih]

theorem Memory.mem_insert {mem : Memory} {a : Nat} {v : Byte} {x : Host.Cell} (h : x ∈ mem.insert a v) :
    x = (a, v) ∨ x ∈ mem := by
  induction mem with
  | nil => simpa [Memory.insert] using h
  | cons y rest ih =>
    obtain ⟨b, w⟩ := y
    by_cases h1 : a < b
    · simpa [Memory.insert, h1] using h
    · by_cases h2 : a = b
      · simp [Memory.insert, h2] at h
        rcases h with h | h
        · exact .inl (by rw [h, h2])
        · exact .inr (List.mem_cons_of_mem _ h)
      · simp [Memory.insert, h1, h2] at h
        rcases h with h | h
        · exact .inr (by simp [h])
        · rcases ih h with h | h
          · exact .inl h
          · exact .inr (List.mem_cons_of_mem _ h)

theorem Memory.mem_erase {mem : Memory} {a : Nat} {x : Host.Cell} (h : x ∈ mem.erase a) : x ∈ mem := by
  induction mem with
  | nil => exact h
  | cons y rest ih =>
    obtain ⟨b, w⟩ := y
    by_cases h1 : a = b
    · simp only [Memory.erase, h1, if_true] at h
      exact List.mem_cons_of_mem _ (ih (h1 ▸ h))
    · simp only [Memory.erase, h1, if_false, List.mem_cons] at h
      rcases h with h | h
      · simp [h]
      · exact List.mem_cons_of_mem _ (ih h)

theorem Memory.insert_rising {mem : Memory} (h : mem.Pairwise (fun x y => x.1 < y.1)) (a : Nat) (v : Byte) :
    (mem.insert a v).Pairwise (fun x y => x.1 < y.1) := by
  induction mem with
  | nil => simp [Memory.insert]
  | cons y rest ih =>
    obtain ⟨b, w⟩ := y
    have hb := (List.pairwise_cons.1 h).1
    have hr := (List.pairwise_cons.1 h).2
    by_cases h1 : a < b
    · simp only [Memory.insert, h1, if_true]
      refine List.pairwise_cons.2 ⟨?_, h⟩
      intro x hx
      rcases List.mem_cons.1 hx with hx | hx
      · simpa [hx] using h1
      · exact Nat.lt_trans h1 (hb x hx)
    · by_cases h2 : a = b
      · subst h2
        simp only [Memory.insert, h1, if_false, if_true]
        exact List.pairwise_cons.2 ⟨hb, hr⟩
      · simp only [Memory.insert, h1, h2, if_false]
        refine List.pairwise_cons.2 ⟨?_, ih hr⟩
        intro x hx
        rcases Memory.mem_insert hx with hx | hx
        · have : b < a := by omega
          simpa [hx] using this
        · exact hb x hx

theorem Memory.erase_rising {mem : Memory} (h : mem.Pairwise (fun x y => x.1 < y.1)) (a : Nat) :
    (mem.erase a).Pairwise (fun x y => x.1 < y.1) := by
  induction mem with
  | nil => simp [Memory.erase]
  | cons y rest ih =>
    obtain ⟨b, w⟩ := y
    have hb := (List.pairwise_cons.1 h).1
    have hr := (List.pairwise_cons.1 h).2
    by_cases h1 : a = b
    · simpa only [Memory.erase, h1, if_true] using h1 ▸ ih hr
    · simp only [Memory.erase, h1, if_false]
      exact List.pairwise_cons.2 ⟨fun x hx => hb x (Memory.mem_erase hx), ih hr⟩

/-! ### Reads and writes -/

@[simp] theorem Memory.read_write_same (u : Option Byte) (mem : Memory) (a : Nat) (v : Byte) :
    Memory.read u (Memory.write u mem a v) a = some v := by
  by_cases h : u = some v
  · simp [Memory.read, Memory.write, h, Memory.lookup_erase_same]
  · simp [Memory.read, Memory.write, h, Memory.lookup_insert_same]

theorem Memory.read_write_other (u : Option Byte) (mem : Memory) {a x : Nat} (v : Byte) (h : x ≠ a) :
    Memory.read u (Memory.write u mem a v) x = Memory.read u mem x := by
  by_cases hu : u = some v
  · simp [Memory.read, Memory.write, hu, Memory.lookup_erase_other _ h]
  · simp [Memory.read, Memory.write, hu, Memory.lookup_insert_other _ _ h]

/-- A write keeps the canonical form. -/
theorem Memory.write_wf {u : Option Byte} {mem : Memory} (h : Memory.wf u mem) (a : Nat) (v : Byte) :
    Memory.wf u (Memory.write u mem a v) := by
  by_cases hu : u = some v
  · rw [Memory.write, if_pos hu]
    exact ⟨Memory.erase_rising h.1 a, fun x hx => h.2 x (Memory.mem_erase hx)⟩
  · rw [Memory.write, if_neg hu]
    refine ⟨Memory.insert_rising h.1 a v, fun x hx => ?_⟩
    rcases Memory.mem_insert hx with hx | hx
    · simpa [hx] using hu
    · exact h.2 x hx

/-- A write below a bound keeps every listed address below it. -/
theorem Memory.write_below {u : Option Byte} {mem : Memory} {bound : Nat} (h : ∀ x ∈ mem, x.1 < bound) {a : Nat}
    (ha : a < bound) (v : Byte) : ∀ x ∈ Memory.write u mem a v, x.1 < bound := by
  intro x hx
  by_cases hu : u = some v
  · rw [Memory.write, if_pos hu] at hx
    exact h x (Memory.mem_erase hx)
  · rw [Memory.write, if_neg hu] at hx
    rcases Memory.mem_insert hx with hx | hx
    · simpa [hx] using ha
    · exact h x hx

theorem Memory.nil_wf (u : Option Byte) : Memory.wf u [] := by simp [Memory.wf]

theorem Memory.ofBytes_ge {start : Nat} {bytes : List Byte} {x : Host.Cell} (h : x ∈ Memory.ofBytes start bytes) :
    start ≤ x.1 ∧ x.1 < start + bytes.length := by
  induction bytes generalizing start with
  | nil => simp [Memory.ofBytes] at h
  | cons v rest ih =>
    rcases List.mem_cons.1 h with h | h
    · simp [h]
    · have := ih h
      simp only [List.length_cons]
      omega

theorem Memory.ofBytes_wf (start : Nat) (bytes : List Byte) : Memory.wf none (Memory.ofBytes start bytes) := by
  refine ⟨?_, by simp⟩
  induction bytes generalizing start with
  | nil => simp [Memory.ofBytes]
  | cons v rest ih =>
    refine List.pairwise_cons.2 ⟨fun x hx => ?_, ih (start + 1)⟩
    have := Memory.ofBytes_ge hx
    simp only
    omega

theorem Memory.lookup_ofBytes (start : Nat) (bytes : List Byte) (k : Nat) :
    (Memory.ofBytes start bytes).lookup (start + k) = bytes[k]? := by
  induction bytes generalizing start k with
  | nil => simp [Memory.ofBytes, Memory.lookup]
  | cons v rest ih =>
    cases k with
    | zero => simp [Memory.ofBytes, Memory.lookup]
    | succ k =>
      have h : start + (k + 1) = start + 1 + k := by omega
      rw [Memory.ofBytes, Memory.lookup, if_neg (by omega), h, ih]
      simp

@[simp] theorem Memory.read_ofBytes (bytes : List Byte) (k : Nat) :
    Memory.read none (Memory.ofBytes 0 bytes) k = bytes[k]? := by
  have := Memory.lookup_ofBytes 0 bytes k
  rw [Nat.zero_add] at this
  rw [Memory.read, this]
  cases bytes[k]? <;> rfl

theorem Memory.lookup_none_of_lt {mem : Memory} {a : Nat} (h : ∀ x ∈ mem, a < x.1) : mem.lookup a = none := by
  induction mem with
  | nil => rfl
  | cons y rest ih =>
    obtain ⟨b, w⟩ := y
    have hb : a < b := h (b, w) (by simp)
    rw [Memory.lookup, if_neg (by omega)]
    exact ih fun x hx => h x (List.mem_cons_of_mem _ hx)

theorem Memory.lookup_of_mem {mem : Memory} (hw : mem.Pairwise (fun x y => x.1 < y.1)) {x : Host.Cell} (h : x ∈ mem) :
    mem.lookup x.1 = some x.2 := by
  induction mem with
  | nil => simp at h
  | cons y rest ih =>
    obtain ⟨b, w⟩ := y
    rcases List.mem_cons.1 h with h | h
    · simp [h, Memory.lookup]
    · have hb := (List.pairwise_cons.1 hw).1 x h
      simp only at hb
      rw [Memory.lookup, if_neg (by omega)]
      exact ih (List.pairwise_cons.1 hw).2 h

/-- Canonical memories that read alike are equal as data. -/
theorem Memory.ext_of_wf {u : Option Byte} {m₁ m₂ : Memory} (h₁ : Memory.wf u m₁) (h₂ : Memory.wf u m₂)
    (h : ∀ a, Memory.read u m₁ a = Memory.read u m₂ a) : m₁ = m₂ := by
  have key : ∀ {p q : Memory}, Memory.wf u p → Memory.wf u q → (∀ a, Memory.read u p a = Memory.read u q a) →
      ∀ a, p.lookup a = q.lookup a := by
    intro p q hp hq hpq a
    have := hpq a
    simp only [Memory.read] at this
    have listed : ∀ {r : Memory}, Memory.wf u r → ∀ {v}, r.lookup a = some v → u ≠ some v := by
      intro r hr v hv
      have : ∃ x ∈ r, x.2 = v := by
        clear this hr
        induction r with
        | nil => simp [Memory.lookup] at hv
        | cons y rest ih =>
          obtain ⟨b, w⟩ := y
          by_cases hb : a = b
          · exact ⟨(b, w), by simp, by simpa [Memory.lookup, hb] using hv⟩
          · rw [Memory.lookup, if_neg hb] at hv
            obtain ⟨x, hx, hxv⟩ := ih hv
            exact ⟨x, List.mem_cons_of_mem _ hx, hxv⟩
      obtain ⟨x, hx, rfl⟩ := this
      exact hr.2 x hx
    cases hpa : p.lookup a with
    | none =>
      cases hqa : q.lookup a with
      | none => rfl
      | some w => simp [hpa, hqa] at this; exact absurd this (listed hq hqa)
    | some v =>
      cases hqa : q.lookup a with
      | none => simp [hpa, hqa] at this; exact absurd this.symm (listed hp hpa)
      | some w => simpa [hpa, hqa] using this
  have hlook := key h₁ h₂ h
  clear key h
  induction m₁ generalizing m₂ with
  | nil =>
    cases m₂ with
    | nil => rfl
    | cons y rest => have := hlook y.1; simp [Memory.lookup] at this
  | cons x xs ih =>
    cases m₂ with
    | nil => have := hlook x.1; simp [Memory.lookup] at this
    | cons y ys =>
      obtain ⟨a, v⟩ := x
      obtain ⟨b, w⟩ := y
      have hx := List.pairwise_cons.1 h₁.1
      have hy := List.pairwise_cons.1 h₂.1
      have hab : a = b := by
        rcases Nat.lt_trichotomy a b with hlt | heq | hgt
        · have := hlook a
          rw [Memory.lookup_none_of_lt (mem := (b, w) :: ys)
            (by intro z hz; rcases List.mem_cons.1 hz with rfl | hz
                · exact hlt
                · exact Nat.lt_trans hlt (hy.1 z hz))] at this
          simp [Memory.lookup] at this
        · exact heq
        · have := hlook b
          rw [Memory.lookup_none_of_lt (mem := (a, v) :: xs)
            (by intro z hz; rcases List.mem_cons.1 hz with rfl | hz
                · exact hgt
                · exact Nat.lt_trans hgt (hx.1 z hz))] at this
          simp [Memory.lookup] at this
      subst hab
      have hvw : v = w := by have := hlook a; simpa [Memory.lookup] using this
      subst hvw
      have hrest : xs = ys := by
        refine ih ⟨hx.2, fun z hz => h₁.2 z (List.mem_cons_of_mem _ hz)⟩
          ⟨hy.2, fun z hz => h₂.2 z (List.mem_cons_of_mem _ hz)⟩ fun c => ?_
        by_cases hc : c = a
        · subst hc
          rw [Memory.lookup_none_of_lt hx.1, Memory.lookup_none_of_lt hy.1]
        · have := hlook c
          simpa [Memory.lookup, hc] using this
      rw [hrest]

end Sys2Proof.Machine
end

