-- ==== Sys2Proof/Laws/Ops.lean ====
section
/-! SUPPORT. What each shared memory operation can do, said once: byte reads and writes, runs, and when they succeed. -/

namespace Sys2Proof.Machine

/-! ### One byte -/

theorem writeByte_ok {sp : Space} {a : Nat} {v : Byte} {s t : State} :
    writeByte sp a v s = .ok t ↔ a < s.size sp ∧ t = s.setMem sp (Memory.write sp.unlisted (s.mem sp) a v) := by
  unfold writeByte
  split <;> simp_all [eq_comm]

theorem writeByte_of_lt {sp : Space} {a : Nat} {s : State} (h : a < s.size sp) (v : Byte) :
    ∃ t, writeByte sp a v s = .ok t := ⟨_, writeByte_ok.2 ⟨h, rfl⟩⟩

theorem readByte_lt {sp : Space} {a : Nat} {v : Byte} {s : State} (h : readByte sp a s = .ok v) : a < s.size sp := by
  unfold readByte at h
  split at h
  · assumption
  · cases h

theorem readByte_ok {sp : Space} {a : Nat} {v : Byte} {s : State} :
    readByte sp a s = .ok v ↔ a < s.size sp ∧ Memory.read sp.unlisted (s.mem sp) a = some v := by
  unfold readByte
  split
  · split <;> simp_all
  · simp_all

/-- A byte's read depends on the space's size and memory alone. -/
theorem readByte_congr {sp : Space} {s t : State} (hs : t.size sp = s.size sp) (hm : t.mem sp = s.mem sp) (a : Nat) :
    readByte sp a t = readByte sp a s := by
  unfold readByte
  rw [hs, hm]

/-- A byte of `REF` always has a value. -/
theorem readByte_ref {a : Nat} {s : State} (h : a < s.n) : Readable .ref a s := by
  have hs : a < s.size .ref := h
  unfold Readable readByte
  rw [if_pos hs]
  simp only [Memory.read, Space.unlisted]
  cases Memory.lookup (s.mem .ref) a with
  | some v => exact ⟨v, rfl⟩
  | none => exact ⟨_, rfl⟩

theorem readByte_writeByte_same {sp : Space} {a : Nat} {v : Byte} {s t : State} (h : writeByte sp a v s = .ok t) :
    readByte sp a t = .ok v := by
  obtain ⟨hlt, rfl⟩ := writeByte_ok.1 h
  exact readByte_ok.2 ⟨by simpa using hlt, by simp⟩

theorem readByte_writeByte_other {sp sp' : Space} {a x : Nat} {v : Byte} {s t : State} (h : writeByte sp a v s = .ok t)
    (hne : sp' ≠ sp ∨ x ≠ a) : readByte sp' x t = readByte sp' x s := by
  obtain ⟨_, rfl⟩ := writeByte_ok.1 h
  by_cases hsp : sp' = sp
  · subst hsp
    have hx : x ≠ a := by rcases hne with h | h; exact absurd rfl h; exact h
    unfold readByte
    rw [State.setMem_size, State.setMem_mem_same, Memory.read_write_other _ _ _ hx]
  · exact readByte_congr (by simp) (State.setMem_mem_other _ _ hsp) x

/-- A write changes its own space's memory alone. -/
theorem writeByte_frame {sp : Space} {a : Nat} {v : Byte} {s t : State} (h : writeByte sp a v s = .ok t) :
    t = s.setMem sp (t.mem sp) := by
  obtain ⟨_, rfl⟩ := writeByte_ok.1 h
  simp

theorem State.setMem_setMem (s : State) (sp : Space) (m₁ m₂ : Memory) : (s.setMem sp m₁).setMem sp m₂ = s.setMem sp m₂ := by
  cases sp <;> rfl

theorem frame_trans {sp : Space} {s t u : State} (h₁ : t = s.setMem sp (t.mem sp)) (h₂ : u = t.setMem sp (u.mem sp)) :
    u = s.setMem sp (u.mem sp) := by
  rw [h₁, State.setMem_setMem] at h₂
  exact h₂

theorem frame_refl (sp : Space) (s : State) : s = s.setMem sp (s.mem sp) := by cases sp <;> rfl

theorem frame_size {sp : Space} {s t : State} (h : t = s.setMem sp (t.mem sp)) (sp' : Space) : t.size sp' = s.size sp' := by
  rw [h]; simp

/-- Under the frame of a space, the other spaces read as before. -/
theorem frame_readByte {sp sp' : Space} {s t : State} (h : t = s.setMem sp (t.mem sp)) (hne : sp' ≠ sp) (a : Nat) :
    readByte sp' a t = readByte sp' a s :=
  readByte_congr (frame_size h sp') (by rw [h]; exact State.setMem_mem_other _ _ hne) a

/-! ### Runs -/

/-- What a copy that succeeds has done: one space's memory changed, only at the destination, and every destination byte is
the source byte as it stands afterwards. `src ≠ dst` is a literal run; `fromBase < toBase` a back-reference. -/
theorem copyRun_ok {src dst : Space} {fromBase toBase : Nat} (hdir : src ≠ dst ∨ fromBase < toBase) {count k : Nat} {s t : State}
    (h : copyRun src dst fromBase toBase count k s = .ok t) :
    t = s.setMem dst (t.mem dst) ∧
      (∀ a, a < toBase + k ∨ toBase + k + count ≤ a → readByte dst a t = readByte dst a s) ∧
      (∀ j, k ≤ j → j < k + count → readByte dst (toBase + j) t = readByte src (fromBase + j) t) := by
  induction count generalizing k s with
  | zero =>
    cases h
    exact ⟨frame_refl dst _, fun _ _ => rfl, fun j h₁ h₂ => by omega⟩
  | succ count ih =>
    simp only [copyRun] at h
    cases hv : readByte src (fromBase + k) s with
    | error f => simp [hv] at h
    | ok v =>
      simp only [hv] at h
      cases hw : writeByte dst (toBase + k) v s with
      | error f => simp [hw] at h
      | ok s' =>
        simp only [hw] at h
        obtain ⟨hf, hout, hdata⟩ := ih h
        refine ⟨frame_trans (writeByte_frame hw) hf, fun a ha => ?_, fun j h₁ h₂ => ?_⟩
        · rw [hout a (by omega)]
          exact readByte_writeByte_other hw (.inr (by omega))
        · by_cases hj : j = k
          · subst hj
            rw [hout _ (by omega), readByte_writeByte_same hw, ← hv]
            rcases Classical.em (src = dst) with he | he
            · subst he
              have hlt : fromBase < toBase := by rcases hdir with h | h; exact absurd rfl h; exact h
              rw [hout _ (by omega)]
              exact (readByte_writeByte_other hw (.inr (by omega))).symm
            · rw [frame_readByte hf he]
              exact (readByte_writeByte_other hw (.inl he)).symm
          · exact hdata j (by omega) (by omega)

/-- When a copy succeeds: the destination exists, and every source byte is readable before the copy or is one that the copy
itself writes earlier. -/
theorem copyRun_succeeds {src dst : Space} {fromBase toBase count k : Nat} {s : State}
    (hsize : toBase + k + count ≤ s.size dst)
    (hread : ∀ j, k ≤ j → j < k + count → Readable src (fromBase + j) s ∨
      (src = dst ∧ fromBase < toBase ∧ toBase + k ≤ fromBase + j)) :
    ∃ t, copyRun src dst fromBase toBase count k s = .ok t := by
  induction count generalizing k s with
  | zero => exact ⟨s, rfl⟩
  | succ count ih =>
    have hk : Readable src (fromBase + k) s := by
      rcases hread k (by omega) (by omega) with h | h
      · exact h
      · omega
    obtain ⟨v, hv⟩ := hk
    obtain ⟨s', hw⟩ := writeByte_of_lt (sp := dst) (a := toBase + k) (s := s) (by omega) v
    have := ih (k := k + 1) (s := s') (by rw [frame_size (writeByte_frame hw)]; omega) ?_
    · obtain ⟨t, ht⟩ := this
      exact ⟨t, by simp only [copyRun, hv, hw, ht]⟩
    · intro j h₁ h₂
      rcases hread j (by omega) (by omega) with ⟨u, hu⟩ | ⟨he, hlt, hge⟩
      · left
        by_cases hsame : src = dst ∧ fromBase + j = toBase + k
        · obtain ⟨he, ha⟩ := hsame
          exact ⟨v, by rw [ha, he]; exact readByte_writeByte_same hw⟩
        · exact ⟨u, by rw [readByte_writeByte_other hw (by tauto)]; exact hu⟩
      · by_cases ha : fromBase + j = toBase + k
        · exact .inl ⟨v, by rw [ha, he]; exact readByte_writeByte_same hw⟩
        · exact .inr ⟨he, hlt, by omega⟩

/-- What writing a list of bytes has done. -/
theorem writeRun_ok {dst : Space} {a : Nat} {bytes : List Byte} {s t : State} (h : writeRun dst a bytes s = .ok t) :
    t = s.setMem dst (t.mem dst) ∧
      (∀ x, x < a ∨ a + bytes.length ≤ x → readByte dst x t = readByte dst x s) ∧
      (∀ j v, bytes[j]? = some v → readByte dst (a + j) t = .ok v) := by
  induction bytes generalizing a s with
  | nil =>
    cases h
    exact ⟨frame_refl dst _, fun _ _ => rfl, fun j v hv => by simp at hv⟩
  | cons b rest ih =>
    simp only [writeRun] at h
    cases hw : writeByte dst a b s with
    | error f => simp [hw] at h
    | ok s' =>
      simp only [hw] at h
      obtain ⟨hf, hout, hdata⟩ := ih h
      refine ⟨frame_trans (writeByte_frame hw) hf, fun x hx => ?_, fun j v hv => ?_⟩
      · simp only [List.length_cons] at hx
        rw [hout x (by omega)]
        exact readByte_writeByte_other hw (.inr (by omega))
      · cases j with
        | zero =>
          have hbv : b = v := by simpa using hv
          rw [hout _ (by omega), ← hbv]
          exact readByte_writeByte_same hw
        | succ j =>
          have := hdata j v (by simpa using hv)
          rwa [show a + (j + 1) = a + 1 + j by omega]

theorem writeRun_succeeds {dst : Space} {a : Nat} {bytes : List Byte} {s : State} (h : a + bytes.length ≤ s.size dst) :
    ∃ t, writeRun dst a bytes s = .ok t := by
  induction bytes generalizing a s with
  | nil => exact ⟨s, rfl⟩
  | cons b rest ih =>
    simp only [List.length_cons] at h
    obtain ⟨s', hw⟩ := writeByte_of_lt (sp := dst) (a := a) (s := s) (by omega) b
    obtain ⟨t, ht⟩ := ih (a := a + 1) (s := s') (by rw [frame_size (writeByte_frame hw)]; omega)
    exact ⟨t, by simp only [writeRun, hw, ht]⟩

/-- A run read is the list of its bytes. -/
theorem readRun_ok {src : Space} {count a : Nat} {s : State} {bytes : List Byte} :
    readRun src count a s = .ok bytes ↔
      bytes.length = count ∧ ∀ j v, bytes[j]? = some v → readByte src (a + j) s = .ok v := by
  induction count generalizing a bytes with
  | zero =>
    constructor
    · intro h
      cases h
      exact ⟨rfl, fun j v hv => by simp at hv⟩
    · rintro ⟨h, -⟩
      rw [List.length_eq_zero_iff] at h
      rw [h]; rfl
  | succ count ih =>
    constructor
    · intro h
      simp only [readRun] at h
      cases hv : readByte src a s with
      | error f => simp [hv] at h
      | ok v =>
        simp only [hv] at h
        cases hr : readRun src count (a + 1) s with
        | error f => simp [hr] at h
        | ok rest =>
          simp only [hr, Except.ok.injEq] at h
          obtain ⟨hl, hd⟩ := ih.1 hr
          subst h
          refine ⟨by simp [hl], fun j w hw => ?_⟩
          cases j with
          | zero =>
            have : v = w := by simpa using hw
            rw [Nat.add_zero, hv, this]
          | succ j =>
            rw [show a + (j + 1) = a + 1 + j by omega]
            exact hd j w (by simpa using hw)
    · rintro ⟨hl, hd⟩
      cases bytes with
      | nil => simp at hl
      | cons b rest =>
        have hb := hd 0 b (by simp)
        have hr : readRun src count (a + 1) s = .ok rest := ih.2 ⟨by simpa using hl, fun j w hw => by
          rw [show a + 1 + j = a + (j + 1) by omega]
          exact hd (j + 1) w (by simpa using hw)⟩
        rw [Nat.add_zero] at hb
        simp only [readRun, hb, hr]

theorem readRun_succeeds {src : Space} {count a : Nat} {s : State} (h : ∀ j, j < count → Readable src (a + j) s) :
    ∃ bytes, readRun src count a s = .ok bytes := by
  induction count generalizing a with
  | zero => exact ⟨[], rfl⟩
  | succ count ih =>
    obtain ⟨v, hv⟩ := h 0 (by omega)
    obtain ⟨rest, hr⟩ := ih (a := a + 1) fun j hj => by
      rw [show a + 1 + j = a + (j + 1) by omega]; exact h (j + 1) (by omega)
    rw [Nat.add_zero] at hv
    exact ⟨v :: rest, by simp only [readRun, hv, hr]⟩

/-- The contents of a space, byte by byte. -/
theorem contents_ok {sp : Space} {s : State} {bytes : List Byte} :
    contents sp s = .ok bytes ↔
      bytes.length = s.size sp ∧ ∀ j v, bytes[j]? = some v → readByte sp j s = .ok v := by
  unfold contents
  rw [readRun_ok]
  simp

theorem contents_ref (s : State) : ∃ bytes, contents .ref s = .ok bytes :=
  readRun_succeeds fun j hj => readByte_ref (by rw [Nat.zero_add]; exact hj)

/-! ### Ends of an operation -/

@[simp] theorem Res.bind_ok {α β : Type} (v : α) (s : State) (next : α → State → Res β) :
    (Res.ok v s).bind next = next v s := rfl
@[simp] theorem Res.bind_raise {α β : Type} (k : ErrorKind) (s : State) (next : α → State → Res β) :
    (Res.raise k s : Res α).bind next = .raise k s := rfl
@[simp] theorem Res.bind_fault {α β : Type} (f : Fault) (next : α → State → Res β) :
    (Res.fault f : Res α).bind next = .fault f := rfl
@[simp] theorem Res.ofExcept_ok (s : State) : Res.ofExcept (.ok s) = .ok () s := rfl
@[simp] theorem Res.ofExcept_error (f : Fault) : Res.ofExcept (.error f) = .fault f := rfl
@[simp] theorem Res.ofRead_ok {α : Type} (v : α) (s : State) : Res.ofRead (.ok v) s = .ok v s := rfl
@[simp] theorem Res.ofRead_error {α : Type} (f : Fault) (s : State) : (Res.ofRead (.error f) s : Res α) = .fault f := rfl
@[simp] theorem Res.finish_ok (u : Unit) (s : State) : (Res.ok u s).finish = .next s := rfl
@[simp] theorem Res.finish_raise (k : ErrorKind) (s : State) : (Res.raise k s).finish = .next (s.takeError k) := rfl
@[simp] theorem Res.finish_fault (f : Fault) : (Res.fault f).finish = .fault f := rfl

/-! ### The canonical form -/

/-- A byte write keeps every space canonical and inside its bounds. -/
theorem writeByte_spaceOk {sp : Space} {a : Nat} {v : Byte} {s t : State} (h : writeByte sp a v s = .ok t) (sp' : Space)
    (hs : SpaceOk sp' s) : SpaceOk sp' t := by
  obtain ⟨hlt, rfl⟩ := writeByte_ok.1 h
  unfold SpaceOk
  by_cases hsp : sp' = sp
  · subst hsp
    rw [State.setMem_mem_same, State.setMem_size]
    exact ⟨Memory.write_wf hs.1 a v, Memory.write_below hs.2 hlt v⟩
  · rw [State.setMem_mem_other _ _ hsp, State.setMem_size]
    exact hs

theorem copyRun_spaceOk {src dst : Space} {fromBase toBase count k : Nat} {s t : State}
    (h : copyRun src dst fromBase toBase count k s = .ok t) (sp : Space) (hs : SpaceOk sp s) : SpaceOk sp t := by
  induction count generalizing k s with
  | zero => cases h; exact hs
  | succ count ih =>
    simp only [copyRun] at h
    split at h
    · cases h
    · split at h
      · cases h
      · next hw => exact ih h (writeByte_spaceOk hw sp hs)

theorem writeRun_spaceOk {dst : Space} {a : Nat} {bytes : List Byte} {s t : State} (h : writeRun dst a bytes s = .ok t)
    (sp : Space) (hs : SpaceOk sp s) : SpaceOk sp t := by
  induction bytes generalizing a s with
  | nil => cases h; exact hs
  | cons b rest ih =>
    simp only [writeRun] at h
    split at h
    · cases h
    · next hw => exact ih h (writeByte_spaceOk hw sp hs)

theorem replaceRun_spaceOk {count : Nat} {s t : State} (h : replaceRun count s = .ok t) (sp : Space) (hs : SpaceOk sp s) :
    SpaceOk sp t := by
  induction count generalizing s with
  | zero => cases h; exact hs
  | succ count ih =>
    simp only [replaceRun] at h
    split at h
    · cases h
    · split at h
      · cases h
      · next hw =>
        refine ih h ?_
        have := writeByte_spaceOk hw sp hs
        cases sp <;> exact this

end Sys2Proof.Machine
end

