-- ==== Sys2Proof/Laws/Operands.lean ====
section
/-! SUPPORT. What each operand form can do, said once: length extension, offset, literal run, back-reference copy, sign bit, and the
update of a frame byte. -/

namespace Sys2Proof.Machine

@[simp] theorem readByte_ip (sp : Space) (a x : Nat) (s : State) : readByte sp a { s with ip := x } = readByte sp a s := by
  cases sp <;> rfl

@[simp] theorem readByte_op (sp : Space) (a x : Nat) (s : State) : readByte sp a { s with op := x } = readByte sp a s := by
  cases sp <;> rfl

@[simp] theorem readByte_seq (sp : Space) (a : Nat) (x : SeqPhase) (s : State) :
    readByte sp a { s with seq := x } = readByte sp a s := by
  cases sp <;> rfl

@[simp] theorem readByte_i (sp : Space) (a x : Nat) (s : State) : readByte sp a { s with i := x } = readByte sp a s := by
  cases sp <;> rfl

@[simp] theorem readByte_takeError (sp : Space) (a : Nat) (k : ErrorKind) (s : State) :
    readByte sp a (s.takeError k) = readByte sp a s := by
  cases sp <;> rfl

@[simp] theorem readByte_enterReconstructing (sp : Space) (a : Nat) (s : State) :
    readByte sp a s.enterReconstructing = readByte sp a s := by
  cases sp <;> rfl

@[simp] theorem readByte_enterPresenting (sp : Space) (a : Nat) (s : State) :
    readByte sp a s.enterPresenting = readByte sp a s := by
  cases sp <;> rfl

/-- The length extension in `MSG` is the one on the list of bytes from `ip` on (R87): the sum, and the pointer after its
last byte; with no terminator, the message is exhausted. -/
theorem readExtension_eq {acc : Nat} {bytes : List Byte} {s : State}
    (hb : ∀ j b, bytes[j]? = some b → readByte .msg (s.ip + j) s = .ok b) :
    readExtension bytes.length acc s =
      match sumExtension acc bytes with
      | none => .raise .truncatedInput { s with ip := s.ip + bytes.length }
      | some (n, rest) => .ok n { s with ip := s.ip + (bytes.length - rest.length) } := by
  induction bytes generalizing acc s with
  | nil => simp [readExtension, sumExtension]
  | cons e bytes ih =>
    have he := hb 0 e (by simp)
    rw [Nat.add_zero] at he
    simp only [List.length_cons, readExtension, he, Res.ofRead_ok, Res.bind_ok]
    by_cases hff : e = 0xFF
    · rw [if_pos hff, sumExtension, if_pos hff]
      have htail : ∀ j b, bytes[j]? = some b → readByte .msg (s.ip + 1 + j) { s with ip := s.ip + 1 } = .ok b := by
        intro j b hj
        rw [readByte_ip, show s.ip + 1 + j = s.ip + (j + 1) by omega]
        exact hb (j + 1) b (by simpa using hj)
      have hval : acc + e.toNat = acc + 255 := by rw [hff]; rfl
      rw [hval, ih htail]
      cases hsum : sumExtension (acc + 255) bytes with
      | none => simp only [Res.raise.injEq, true_and]; congr 1; omega
      | some p =>
        obtain ⟨n, rest⟩ := p
        have := sumExtension_length hsum
        simp only [Res.ok.injEq, true_and]
        congr 1
        omega
    · rw [if_neg hff, sumExtension, if_neg hff]
      simp only [Res.ok.injEq, true_and]
      congr 1
      omega

/-- Without any assumption on the bytes, a length extension changes the input pointer alone, forward and not past the
count. -/
theorem readExtension_frame {left acc : Nat} {s : State} :
    match readExtension left acc s with
    | .ok n t => t = { s with ip := t.ip } ∧ s.ip < t.ip ∧ t.ip ≤ s.ip + left ∧ acc ≤ n
    | .raise k t => k = .truncatedInput ∧ t = { s with ip := s.ip + left }
    | .fault f => ∃ a, s.ip ≤ a ∧ a < s.ip + left ∧ ¬ Readable .msg a s ∧ readByte .msg a s = .error f := by
  induction left generalizing acc s with
  | zero => simp [readExtension]
  | succ left ih =>
    simp only [readExtension]
    cases he : readByte .msg s.ip s with
    | error f =>
      refine ⟨s.ip, Nat.le_refl _, by omega, ?_, he⟩
      rintro ⟨v, hv⟩
      rw [he] at hv
      cases hv
    | ok e =>
      simp only [Res.ofRead_ok, Res.bind_ok]
      by_cases hff : e = 0xFF
      · rw [if_pos hff]
        have := ih (acc := acc + e.toNat) (s := { s with ip := s.ip + 1 })
        cases hr : readExtension left (acc + e.toNat) { s with ip := s.ip + 1 } with
        | ok n t =>
          simp only [hr] at this ⊢
          exact ⟨this.1, by omega, by omega, by omega⟩
        | raise k t =>
          simp only [hr] at this ⊢
          exact ⟨this.1, by rw [this.2]; congr 1; omega⟩
        | fault f =>
          simp only [hr] at this ⊢
          obtain ⟨a, h1, h2, h3, h4⟩ := this
          refine ⟨a, by omega, by omega, ?_, by simpa using h4⟩
          simpa [Readable] using h3
      · rw [if_neg hff]
        exact ⟨rfl, by simp, by simp, by simp⟩

/-- A length extension that the message holds whole is summed, and the pointer stands after it (R87). -/
theorem readExtension_run {left acc k : Nat} {e : Byte} {s : State} (h : ExtensionAt s.ip k e s) (hl : k < left) :
    readExtension left acc s = .ok (acc + extensionSum k e) { s with ip := s.ip + k + 1 } := by
  induction k generalizing left acc s with
  | zero =>
    obtain ⟨left, rfl⟩ : ∃ m, left = m + 1 := ⟨left - 1, by omega⟩
    obtain ⟨-, he, hne⟩ := h
    rw [Nat.add_zero] at he
    simp only [readExtension, he, Res.ofRead_ok, Res.bind_ok, if_neg hne, extensionSum, Nat.mul_zero, Nat.zero_add,
      Nat.add_zero]
  | succ k ih =>
    obtain ⟨left, rfl⟩ : ∃ m, left = m + 1 := ⟨left - 1, by omega⟩
    obtain ⟨hff, he, hne⟩ := h
    have h0 := hff 0 (by omega)
    rw [Nat.add_zero] at h0
    have hx : ExtensionAt (s.ip + 1) k e { s with ip := s.ip + 1 } := by
      refine ⟨fun j hj => ?_, ?_, hne⟩
      · simpa [Nat.add_assoc, Nat.add_comm 1] using hff (j + 1) (by omega)
      · simpa [Nat.add_assoc, Nat.add_comm 1] using he
    simp only [readExtension, h0, Res.ofRead_ok, Res.bind_ok, if_true]
    rw [ih (s := { s with ip := s.ip + 1 }) (left := left) hx (by omega)]
    simp only [Res.ok.injEq, extensionSum]
    constructor
    · have : BitVec.toNat (255 : Byte) = 255 := rfl
      omega
    · congr 1
      omega

/-- A length extension that the message cuts off raises `TruncatedInput` at the message's end (R87). -/
theorem readExtension_cut {left acc : Nat} {s : State} (h : ∀ j, j < left → readByte .msg (s.ip + j) s = .ok 0xFF) :
    readExtension left acc s = .raise .truncatedInput { s with ip := s.ip + left } := by
  induction left generalizing acc s with
  | zero => rfl
  | succ left ih =>
    have h0 := h 0 (by omega)
    rw [Nat.add_zero] at h0
    simp only [readExtension, h0, Res.ofRead_ok, Res.bind_ok, if_true]
    rw [ih (s := { s with ip := s.ip + 1 }) fun j hj => by
      simpa [Nat.add_assoc, Nat.add_comm 1] using h (j + 1) (by omega)]
    congr 2
    exact Nat.add_right_comm s.ip 1 left

/-- R90: two bytes, low byte first, or `TruncatedInput` with the pointer where it was. -/
theorem readOffset_eq {s : State} :
    (s.c < s.ip + 2 → readOffset s = .raise .truncatedInput s) ∧
    (∀ lo hi, s.ip + 2 ≤ s.c → readByte .msg s.ip s = .ok lo → readByte .msg (s.ip + 1) s = .ok hi →
      readOffset s = .ok (assembleOffset lo hi) { s with ip := s.ip + 2 }) := by
  refine ⟨fun h => if_pos h, fun lo hi h hlo hhi => ?_⟩
  rw [readOffset, if_neg (by omega)]
  simp [hlo, hhi]

/-- The literal run (R113, R119): `TruncatedInput` before `SizeMismatch`, neither with a byte written; else the copy. -/
theorem literalRun_eq {litlen : Nat} {s : State} :
    (s.c < s.ip + litlen → literalRun litlen s = .raise .truncatedInput s) ∧
    (s.ip + litlen ≤ s.c → s.l < s.op + litlen → literalRun litlen s = .raise .sizeMismatch s) ∧
    (s.ip + litlen ≤ s.c → s.op + litlen ≤ s.l → (∀ k, k < litlen → Readable .msg (s.ip + k) s) →
      ∃ t, literalRun litlen s = .ok () t ∧
        t = { s with ip := s.ip + litlen, op := s.op + litlen, dec := t.dec } ∧
        (∀ k, k < litlen → readByte .dec (s.op + k) t = readByte .msg (s.ip + k) s) ∧
        (∀ a, a < s.op ∨ s.op + litlen ≤ a → readByte .dec a t = readByte .dec a s)) := by
  refine ⟨fun h => if_pos h, fun h₁ h₂ => by rw [literalRun, if_neg (by omega), if_pos h₂], fun h₁ h₂ hr => ?_⟩
  obtain ⟨u, hu⟩ := copyRun_succeeds (src := .msg) (dst := .dec) (fromBase := s.ip) (toBase := s.op) (count := litlen)
    (k := 0) (s := s) (by simpa using h₂) (fun j _ hj => .inl (hr j (by omega)))
  obtain ⟨hf, hout, hdata⟩ := copyRun_ok (.inl (by decide)) hu
  refine ⟨{ u with ip := u.ip + litlen, op := u.op + litlen }, ?_, ?_, fun k hk => ?_, fun a ha => ?_⟩
  · rw [literalRun, if_neg (by omega), if_neg (by omega), hu]
    rfl
  · rw [hf]; rfl
  · exact (hdata k (by omega) (by omega)).trans (frame_readByte hf (by decide) _)
  · exact hout a (by omega)

/-- The back-reference copy (R115, R119): the offset is checked before the capacity, and neither failure writes a byte; else
every byte written is the byte `offset` before it, overlapping or not (R68). -/
theorem backRefCopy_eq {offset matchlen : Nat} {s : State} :
    (offset = 0 ∨ s.op < offset → backRefCopy offset matchlen s = .raise .malformedStream s) ∧
    (1 ≤ offset → offset ≤ s.op → s.l < s.op + matchlen → backRefCopy offset matchlen s = .raise .sizeMismatch s) ∧
    (1 ≤ offset → offset ≤ s.op → s.op + matchlen ≤ s.l → (∀ a, s.op - offset ≤ a → a < s.op → Readable .dec a s) →
      ∃ t, backRefCopy offset matchlen s = .ok () t ∧
        t = { s with op := s.op + matchlen, dec := t.dec } ∧
        (∀ k, k < matchlen → readByte .dec (s.op + k) t = readByte .dec (s.op + k - offset) t) ∧
        (∀ a, a < s.op ∨ s.op + matchlen ≤ a → readByte .dec a t = readByte .dec a s)) := by
  refine ⟨fun h => if_pos h, fun h₁ h₂ h₃ => by rw [backRefCopy, if_neg (by omega), if_pos h₃], fun h₁ h₂ h₃ hr => ?_⟩
  obtain ⟨u, hu⟩ := copyRun_succeeds (src := .dec) (dst := .dec) (fromBase := s.op - offset) (toBase := s.op)
    (count := matchlen) (k := 0) (s := s) (by simpa using h₃) (fun j _ hj => by
      by_cases hja : s.op - offset + j < s.op
      · exact .inl (hr _ (by omega) hja)
      · exact .inr ⟨rfl, by omega, by omega⟩)
  obtain ⟨hf, hout, hdata⟩ := copyRun_ok (.inr (by omega)) hu
  refine ⟨{ u with op := u.op + matchlen }, ?_, ?_, fun k hk => ?_, fun a ha => ?_⟩
  · rw [backRefCopy, if_neg (by omega), if_neg (by omega), hu]
    rfl
  · rw [hf]; rfl
  · have := hdata k (by omega) (by omega)
    rw [show s.op + k - offset = s.op - offset + k by omega]
    exact this
  · exact hout a (by omega)

/-- The update of a frame byte (R143, R144): one byte of `REF`, from its old value and the delta byte. -/
theorem updateRefByte_ok {f : Byte → Byte → Byte} {i : Nat} {s : State} {r d : Byte} (hr : readByte .ref i s = .ok r)
    (hd : readByte .dec i s = .ok d) :
    ∃ t, updateRefByte f i s = .ok t ∧ t = { s with ref := t.ref } ∧ readByte .ref i t = .ok (f r d) ∧
      (∀ a, a ≠ i → readByte .ref a t = readByte .ref a s) := by
  obtain ⟨t, ht⟩ := writeByte_of_lt (readByte_lt hr) (f r d)
  refine ⟨t, by simp only [updateRefByte, hr, hd, ht], ?_, readByte_writeByte_same ht, fun a ha =>
    readByte_writeByte_other ht (.inr ha)⟩
  have := writeByte_frame ht
  rw [this]; rfl

end Sys2Proof.Machine
end

