-- ==== Sys2Proof/Laws/Stages.lean ====
section
/-! SUPPORT. The stages: what each point of the sequencer does, the replay of a message against the function `replay`, and what
an operation of the decode stage can change. -/

open Sys2Proof

namespace Sys2Proof.Machine

/-! ### One part of a sequence, in terms of the rest of the message -/

/-- The rest of the message from the input pointer on. -/
def MsgTail (rest : List Byte) (s : State) : Prop :=
  s.ip + rest.length = s.c ∧ ∀ j b, rest[j]? = some b → readByte .msg (s.ip + j) s = .ok b

/-- The bytes written so far. -/
def DecPrefix (out : List Byte) (s : State) : Prop :=
  out.length = s.op ∧ ∀ j v, out[j]? = some v → readByte .dec j s = .ok v

theorem MsgTail.drop {rest : List Byte} {s : State} (h : MsgTail rest s) (k : Nat) (hk : k ≤ rest.length) :
    MsgTail (rest.drop k) { s with ip := s.ip + k } := by
  refine ⟨by have := h.1; simp; omega, fun j b hj => ?_⟩
  rw [readByte_ip]
  simp only [Nat.add_assoc]
  exact h.2 (k + j) b (by simpa [Nat.add_comm] using hj)

theorem takeLength_rest {f : Nibble} {bytes rest : List Byte} {n : Nat} (h : takeLength f bytes = some (n, rest)) :
    rest.length ≤ bytes.length ∧ rest = bytes.drop (bytes.length - rest.length) := by
  unfold takeLength at h
  split at h
  · exact ⟨Nat.le_of_lt (sumExtension_length h), sumExtension_rest h⟩
  · simp only [Option.some.injEq, Prod.mk.injEq] at h
    rw [← h.2]; simp

/-- The literal part of a sequence. -/
theorem litPart_eq {t : Byte} {after : List Byte} {s : State} (h : MsgTail (t :: after) s) :
    runMicro (decodeLiteralPart t) s =
      match takeLength (tokenLL t) after with
      | none => .next ({ s with ip := s.c }.takeError .truncatedInput)
      | some (litlen, rest) =>
        ((literalRun litlen { s with ip := s.c - rest.length }).bind fun _ s' =>
          .ok () { s' with seq := .backRef t }).finish := by
  have htail := h.drop 1 (by simp)
  simp only [List.drop_one, List.tail_cons] at htail
  have hlen := htail.1
  simp only at hlen
  by_cases hl : tokenLL t = 15
  · have hcount : s.c - (s.ip + 1) = after.length := by omega
    have hb : tokenByte 15 (tokenMM t) = t := by rw [← hl]; exact tokenByte_fields t
    simp only [decodeLiteralPart_litx hl, runMicro, execLitx, hcount, readExtension_eq htail.2, takeLength, hl, if_true, hb]
    cases hs : sumExtension 15 after with
    | none => simp [hlen]
    | some p =>
      obtain ⟨n, rest⟩ := p
      have := sumExtension_length hs
      have he : s.ip + 1 + (after.length - rest.length) = s.c - rest.length := by omega
      simp [he]
  · simp only [decodeLiteralPart_lit hl, runMicro, execLit, takeLength, if_neg hl, tokenByte_fields]
    rw [show s.c - after.length = s.ip + 1 by omega]

/-- The back-reference part of a sequence. -/
theorem refPart_eq {t : Byte} {rest : List Byte} {s : State} (h : MsgTail rest s) :
    runMicro (decodeBackRefPart t) s =
      match rest with
      | [] => .next (s.takeError .truncatedInput)
      | [_] => .next (s.takeError .truncatedInput)
      | lo :: hi :: after =>
        match takeLength (tokenMM t) after with
        | none => .next ({ s with ip := s.c }.takeError .truncatedInput)
        | some (m, rest') =>
          ((backRefCopy (assembleOffset lo hi) (m + matchBias) { s with ip := s.c - rest'.length }).bind fun _ s' =>
            .ok () { s' with seq := .token }).finish := by
  have hc := h.1
  have short : s.c < s.ip + 2 → runMicro (decodeBackRefPart t) s = .next (s.takeError .truncatedInput) := by
    intro hs
    by_cases hm : tokenMM t = 15
    · simp [decodeBackRefPart_refx hm, runMicro, execRefx, (readOffset_eq (s := s)).1 hs]
    · simp [decodeBackRefPart_ref hm, runMicro, execRef, (readOffset_eq (s := s)).1 hs]
  match rest, h with
  | [], h => exact short (by simp at hc; omega)
  | [_], h => exact short (by simp at hc; omega)
  | lo :: hi :: after, h =>
    have htail := h.drop 2 (by simp)
    simp only [List.drop_succ_cons, List.drop_zero] at htail
    simp only [List.length_cons] at hc
    have ho := (readOffset_eq (s := s)).2 lo hi (by omega) (by simpa using h.2 0 lo (by simp)) (h.2 1 hi (by simp))
    by_cases hm : tokenMM t = 15
    · have hcount : s.c - (s.ip + 2) = after.length := by omega
      simp only [decodeBackRefPart_refx hm, runMicro, execRefx, ho, Res.bind_ok, hcount, readExtension_eq htail.2, takeLength, hm, if_true]
      cases hs : sumExtension 15 after with
      | none => simp; congr 2; omega
      | some p =>
        obtain ⟨n, rest⟩ := p
        have := sumExtension_length hs
        have he : s.ip + 2 + (after.length - rest.length) = s.c - rest.length := by omega
        simp [he]
    · simp only [decodeBackRefPart_ref hm, runMicro, execRef, ho, Res.bind_ok, takeLength, if_neg hm]
      rw [show s.c - after.length = s.ip + 2 by omega]

theorem DecPrefix.literal {out bytes : List Byte} {s t : State} (h : DecPrefix out s)
    (hop : t.op = s.op + bytes.length)
    (hd : ∀ j v, bytes[j]? = some v → readByte .dec (s.op + j) t = .ok v)
    (ho : ∀ a, a < s.op → readByte .dec a t = readByte .dec a s) : DecPrefix (out ++ bytes) t := by
  refine ⟨by simp [h.1, hop], fun j v hj => ?_⟩
  by_cases hlt : j < out.length
  · rw [List.getElem?_append_left hlt] at hj
    rw [ho j (by rw [← h.1]; exact hlt)]
    exact h.2 j v hj
  · rw [List.getElem?_append_right (by omega)] at hj
    have := hd _ v hj
    rwa [← h.1, show out.length + (j - out.length) = j by omega] at this

theorem appendCopy_read {offset n : Nat} {out : List Byte} {u : State} (h1 : 1 ≤ offset) (h2 : offset ≤ out.length)
    (hp : ∀ j v, out[j]? = some v → readByte .dec j u = .ok v)
    (hc : ∀ k, k < n → readByte .dec (out.length + k) u = readByte .dec (out.length + k - offset) u) :
    ∀ j v, (appendCopy offset n out)[j]? = some v → readByte .dec j u = .ok v := by
  induction n generalizing out with
  | zero => exact hp
  | succ n ih =>
    rw [appendCopy]
    apply ih
    · simp; omega
    · intro j v hj
      by_cases hlt : j < out.length
      · rw [List.getElem?_append_left hlt] at hj; exact hp j v hj
      · have hj' : j = out.length := by
          have := (List.getElem?_eq_some_iff.1 hj).1; simp at this; omega
        subst hj'
        have h0 := hc 0 (by omega)
        rw [Nat.add_zero] at h0
        rw [h0]
        simp at hj
        have hl : out.length - offset < out.length := by omega
        apply hp
        rw [List.getElem?_eq_getElem hl] at hj ⊢
        simpa using hj
    · intro k hk
      have := hc (k + 1) (by omega)
      simpa [Nat.add_assoc, Nat.add_comm 1] using this

theorem appendCopy_length (o n : Nat) (out : List Byte) : (appendCopy o n out).length = out.length + n := by
  induction n generalizing out with
  | zero => rfl
  | succ n ih => rw [appendCopy, ih]; simp; omega

theorem DecPrefix.copy {out : List Byte} {offset n : Nat} {s t : State} (h : DecPrefix out s) (h1 : 1 ≤ offset) (h2 : offset ≤ s.op)
    (hop : t.op = s.op + n)
    (hd : ∀ k, k < n → readByte .dec (s.op + k) t = readByte .dec (s.op + k - offset) t)
    (ho : ∀ a, a < s.op → readByte .dec a t = readByte .dec a s) : DecPrefix (appendCopy offset n out) t := by
  refine ⟨by simp [appendCopy_length, h.1, hop], ?_⟩
  apply appendCopy_read h1 (by rw [h.1]; exact h2)
  · intro j v hj
    have := (List.getElem?_eq_some_iff.1 hj).1
    rw [ho j (by rw [← h.1]; exact this)]
    exact h.2 j v hj
  · rw [h.1]; exact hd

theorem DecPrefix.readable {out : List Byte} {s : State} (h : DecPrefix out s) {a : Nat} (ha : a < s.op) : Readable .dec a s := by
  rw [← h.1] at ha
  exact ⟨out[a], h.2 a _ (List.getElem?_eq_getElem ha)⟩

/-- What a run of the decode stage from `s` ends in: the result of the function, the same fields changed. -/
def DecodeEnds (s : State) (ipEnd : Nat → Prop) (r : Except ErrorKind (List Byte)) (o : Outcome) : Prop :=
  match r with
  | .ok out => ∃ t, o = .next t ∧
      t = { s with ip := t.ip, op := s.l, seq := .idle, fsm := .reconstructing, dec := t.dec } ∧ ipEnd t.ip ∧ contents .dec t = .ok out
  | .error kind => ∃ t, o = .next t ∧ t = { s with ip := t.ip, op := t.op, dec := t.dec, seq := .idle, status := .terminated kind, trace := s.trace ++ [.fail kind] }

/-- Only the fields that the decode stage works on differ. -/
def OnlyDecode (s u : State) : Prop := u = { s with ip := u.ip, op := u.op, seq := u.seq, dec := u.dec }

theorem DecodeEnds.trans {s u : State} {P} {r} {o} (h : OnlyDecode s u) (g : DecodeEnds u P r o) : DecodeEnds s P r o := by
  unfold OnlyDecode at h
  unfold DecodeEnds at *
  cases r with
  | ok out => obtain ⟨t, h1, h2, h3⟩ := g; exact ⟨t, h1, by rw [h2, h], h3⟩
  | error k => obtain ⟨t, h1, h2⟩ := g; exact ⟨t, h1, by rw [h2, h]⟩

theorem OnlyDecode.refl (s : State) : OnlyDecode s s := rfl

/-- The replay of a parsed stream from the bytes written so far (R124). -/
def replayFrom (l : Nat) (stream : TokenStream) (out : List Byte) : Except ErrorKind (List Byte) :=
  match replay l stream.tokens out with
  | .error kind => .error kind
  | .ok out =>
    if stream.truncated then .error .truncatedInput
    else if out.length = l then .ok out else .error .sizeMismatch

theorem contents_of_out {out : List Byte} {s t : State} (h : DecPrefix out s) (hl : s.op = s.l) (hs : t.l = s.l) (hd : t.dec = s.dec) :
    contents .dec t = .ok out := by
  rw [contents_ok]
  refine ⟨by rw [h.1, hl]; simp [hs], fun j v hj => ?_⟩
  rw [readByte_congr (s := s) (by simp [hs]) (by simp [hd])]
  exact h.2 j v hj

theorem finishDecode_ends {out : List Byte} {s : State} (h : DecPrefix out s) :
    DecodeEnds s (fun x => x = s.ip) (if out.length = s.l then .ok out else .error .sizeMismatch) (finishDecode s) := by
  by_cases hl : s.op = s.l
  · rw [if_pos (by rw [h.1, hl]), finishDecode, if_pos hl]
    refine ⟨_, rfl, ?_, rfl, ?_⟩
    · simp [State.enterReconstructing, ← hl]
    · exact contents_of_out h hl rfl rfl
  · rw [if_neg (by rw [h.1]; exact hl), finishDecode, if_neg hl]
    exact ⟨_, rfl, rfl⟩

theorem runStage_idle (n : Nat) (s : State) (h : s.seq = .idle) : runStage n s = .next s := by
  cases n
  · rfl
  · rw [runStage, if_pos h]

theorem runStage_next {n : Nat} {s t : State} (h : s.seq ≠ .idle) (hm : microStep s = .next t) :
    runStage (n + 1) s = runStage n t := by
  rw [runStage, if_neg h, hm]

/-- From the end of the message, the stage makes the exact-size check (R117, R118). -/
theorem runStage_end {n : Nat} {out : List Byte} {s : State} (hs : s.seq = .token ∨ ∃ t, s.seq = .backRef t) (he : s.ip = s.c) (h : DecPrefix out s) :
    DecodeEnds s (fun x => x = s.c) (if out.length = s.l then .ok out else .error .sizeMismatch) (runStage (n + 2) s) := by
  have h1 : microStep s = .next { s with seq := .check } := by
    rcases hs with hs | ⟨t, hs⟩ <;> simp [microStep, fetchMicro, hs, he, runMicro, execEndStream]
  have hne : s.seq ≠ .idle := by rcases hs with hs | ⟨t, hs⟩ <;> simp [hs]
  rw [runStage_next hne h1]
  have h2 : microStep { s with seq := SeqPhase.check } = finishDecode { s with seq := .check } := by
    simp [microStep, fetchMicro, closeStage]
  have h' : DecPrefix out { s with seq := SeqPhase.check } := ⟨h.1, fun j v hj => by rw [readByte_seq]; exact h.2 j v hj⟩
  have g := (finishDecode_ends h').trans (show OnlyDecode s { s with seq := SeqPhase.check } from rfl)
  unfold DecodeEnds at g ⊢
  have aux : ∀ t, finishDecode { s with seq := .check } = .next t → t.seq = .idle := by
    intro t ht
    unfold finishDecode at ht
    split at ht <;> (cases ht; rfl)
  simp only at g
  split at g
  · obtain ⟨t, ht, hx, hy, hz⟩ := g
    rename_i heq
    rw [heq]
    exact ⟨t, by rw [runStage_next (by simp) (h2.trans ht), runStage_idle _ _ (aux t ht)], hx, by rw [hy]; exact he, hz⟩
  · obtain ⟨t, ht, hx⟩ := g
    rename_i heq
    rw [heq]
    exact ⟨t, by rw [runStage_next (by simp) (h2.trans ht), runStage_idle _ _ (aux t ht)], hx⟩

theorem DecodeEnds.error {n : Nat} {s u : State} {P} {k : ErrorKind} (hs : s.seq ≠ .idle) (hm : microStep s = .next (u.takeError k)) (h : OnlyDecode s u) :
    DecodeEnds s P (.error k) (runStage (n + 1) s) := by
  refine ⟨u.takeError k, ?_, ?_⟩
  · rw [runStage_next hs hm, runStage_idle _ _ rfl]
  · unfold OnlyDecode at h
    rw [h]; rfl

/-- From the top of the loop of R112, the stage computes the replay of the rest of the message (R112, R124). -/
theorem runStage_decodes (n : Nat) : ∀ (rest out : List Byte) (s : State) (fuel : Nat), rest.length ≤ n → 2 * rest.length + 2 ≤ fuel →
    s.seq = .token → MsgTail rest s → DecPrefix out s → out.length ≤ s.l →
    DecodeEnds s (fun x => x = s.c) (replayFrom s.l (parseSequences n rest) out) (runStage fuel s) := by
  induction n with
  | zero =>
    intro rest out s fuel hn hf hs ht ho hl
    have : rest = [] := by simpa using hn
    subst this
    obtain ⟨f, rfl⟩ : ∃ f, fuel = f + 2 := ⟨fuel - 2, by omega⟩
    exact runStage_end (.inl hs) (by simpa using ht.1) ho
  | succ n ih =>
    intro rest out s fuel hn hf hs ht ho hl
    cases rest with
    | nil =>
      obtain ⟨f, rfl⟩ : ∃ f, fuel = f + 2 := ⟨fuel - 2, by omega⟩
      exact runStage_end (.inl hs) (by simpa using ht.1) ho
    | cons t after =>
      have hc := ht.1
      simp only [List.length_cons] at hc hn hf
      have hne : s.seq ≠ .idle := by simp [hs]
      have hmicro : microStep s = runMicro (decodeLiteralPart t) s := by
        have h0 := ht.2 0 t (by simp)
        rw [Nat.add_zero] at h0
        simp only [microStep, fetchMicro, hs, if_pos (show s.ip < s.c by omega), h0]
      rw [litPart_eq ht] at hmicro
      obtain ⟨f, rfl⟩ : ∃ f, fuel = f + 1 := ⟨fuel - 1, by omega⟩
      simp only [parseSequences]
      cases htl : takeLength (tokenLL t) after with
      | none =>
        simp only [htl] at hmicro
        simp only [replayFrom, replay, if_true]
        exact DecodeEnds.error hne hmicro rfl
      | some p =>
        obtain ⟨litlen, ext⟩ := p
        obtain ⟨hle, hext⟩ := takeLength_rest htl
        simp only [htl] at hmicro
        have ht1 : MsgTail ext { s with ip := s.c - ext.length } := by
          have hd := ht.drop (1 + (after.length - ext.length)) (by simp; omega)
          rw [Nat.add_comm 1, List.drop_succ_cons, ← hext] at hd
          rw [show s.c - ext.length = s.ip + (after.length - ext.length + 1) by omega]
          exact hd
        by_cases htr : ext.length < litlen
        · rw [(literalRun_eq (s := { s with ip := s.c - ext.length })).1 (by simp; omega)] at hmicro
          simp only [if_pos htr, replayFrom, replay, if_true]
          exact DecodeEnds.error hne hmicro rfl
        dsimp only
        rw [if_neg htr]
        by_cases hsz : s.l < s.op + litlen
        · rw [(literalRun_eq (s := { s with ip := s.c - ext.length })).2.1 (by simp; omega) hsz] at hmicro
          have hfin : ∀ st : TokenStream, st.tokens.head? = some (Token.literal (ext.take litlen)) → replayFrom s.l st out = .error .sizeMismatch := by
            intro st hst
            cases hst' : st.tokens with
            | nil => simp [hst'] at hst
            | cons a b =>
              simp only [hst', List.head?_cons, Option.some.injEq] at hst
              subst hst
              simp only [replayFrom, hst', replay]
              rw [if_pos (by rw [ho.1, List.length_take]; omega)]
          rw [hfin]
          · exact DecodeEnds.error hne hmicro rfl
          · split
            · rfl
            · rfl
            · split <;> rfl
        obtain ⟨u, hu, huf, hud, huo⟩ := (literalRun_eq (litlen := litlen) (s := { s with ip := s.c - ext.length })).2.2
          (by simp; omega) (by simpa using hsz) (fun k hk => by
            have hk' : k < ext.length := by omega
            exact ⟨ext[k], ht1.2 k _ (List.getElem?_eq_getElem hk')⟩)
        simp only at huf hud huo
        rw [hu] at hmicro
        simp only [Res.bind_ok, Res.finish_ok] at hmicro
        generalize hv : ({ u with seq := SeqPhase.backRef t } : State) = v at hmicro
        have hvs : v.seq = .backRef t := by rw [← hv]
        have hsame : OnlyDecode s v := by rw [← hv, huf]; rfl
        have hvl : v.l = s.l := by rw [hsame]
        have hvc : v.c = s.c := by rw [hsame]
        have hvip : v.ip = s.c - ext.length + litlen := by rw [← hv, huf]
        have hvop : v.op = s.op + litlen := by rw [← hv, huf]
        have hvout : DecPrefix (out ++ ext.take litlen) v := by
          apply ho.literal
          · rw [hvop, List.length_take]; omega
          · intro j w hj
            rw [List.getElem?_take] at hj
            split at hj
            · next hjl =>
              rw [← hv, readByte_seq, hud j hjl]
              exact ht1.2 j w hj
            · cases hj
          · intro a ha
            rw [← hv, readByte_seq, huo a (.inl ha)]
            rfl
        have hvmsg : MsgTail (ext.drop litlen) v := by
          have hd := ht1.drop litlen (by omega)
          refine ⟨by have := hd.1; simp only at this; rw [hvip, hvc]; exact this, fun j b hj => ?_⟩
          have := hd.2 j b hj
          simp only at this
          rw [hvip]
          rw [readByte_congr (s := s) (by rw [hsame]; rfl) (by rw [hsame]; rfl)]
          simpa using this
        have hvlen : (out ++ ext.take litlen).length ≤ v.l := by rw [hvout.1, hvop, hvl]; omega
        have hop' : (out ++ ext.take litlen).length = s.op + litlen := by rw [hvout.1, hvop]
        rw [runStage_next hne hmicro]
        rw [← hvl, ← hvc]
        apply DecodeEnds.trans hsame
        have hvne : v.seq ≠ .idle := by simp [hvs]
        have hrep : ¬ v.l < out.length + (ext.take litlen).length := by
          have := hvlen
          simp only [List.length_append] at this
          omega
        have hlens : ext.length ≤ after.length := hle
        have hrl := hvmsg.1
        generalize hr : ext.drop litlen = r at hvmsg hrl ⊢
        have hrlen : r.length ≤ ext.length := by rw [← hr]; simp
        have hvmicro : v.ip < v.c → microStep v = runMicro (decodeBackRefPart t) v := by
          intro h
          simp only [microStep, fetchMicro, hvs, if_pos h]
        match r, hvmsg with
        | [], hvmsg =>
          obtain ⟨f, rfl⟩ : ∃ g, f = g + 2 := ⟨f - 2, by omega⟩
          simp only [replayFrom, replay, if_neg hrep, Bool.false_eq_true, if_false]
          exact runStage_end (.inr ⟨t, hvs⟩) (by simpa using hvmsg.1) hvout
        | [x], hvmsg =>
          obtain ⟨f, rfl⟩ : ∃ g, f = g + 1 := ⟨f - 1, by omega⟩
          simp only [replayFrom, replay, if_neg hrep, if_true]
          refine DecodeEnds.error hvne ?_ (OnlyDecode.refl v)
          rw [hvmicro (by simp at hrl; omega), refPart_eq hvmsg]
        | lo :: hi :: aoff, hvmsg =>
          simp only [List.length_cons] at hrl hrlen
          obtain ⟨f, rfl⟩ : ∃ g, f = g + 1 := ⟨f - 1, by omega⟩
          have hm := hvmicro (by omega)
          rw [refPart_eq hvmsg] at hm
          simp only at hm ⊢
          cases htm : takeLength (tokenMM t) aoff with
          | none =>
            simp only [htm] at hm
            simp only [replayFrom, replay, if_neg hrep, if_true]
            exact DecodeEnds.error hvne hm rfl
          | some p =>
            obtain ⟨m, rest'⟩ := p
            obtain ⟨hle', hrest'⟩ := takeLength_rest htm
            simp only [htm] at hm
            simp only [replayFrom, replay, if_neg hrep]
            by_cases hof : assembleOffset lo hi = 0 ∨ (out ++ ext.take litlen).length < assembleOffset lo hi
            · rw [if_pos hof]
              rw [(backRefCopy_eq (s := { v with ip := v.c - rest'.length })).1 (by rw [hvout.1] at hof; exact hof)] at hm
              exact DecodeEnds.error hvne hm rfl
            rw [if_neg hof]
            have hof1 : 1 ≤ assembleOffset lo hi := by omega
            have hof2 : assembleOffset lo hi ≤ v.op := by rw [← hvout.1]; omega
            by_cases hcap : v.l < (out ++ ext.take litlen).length + (m + matchBias)
            · rw [if_pos hcap]
              rw [(backRefCopy_eq (s := { v with ip := v.c - rest'.length })).2.1 hof1 hof2 (by rw [hvout.1] at hcap; exact hcap)] at hm
              exact DecodeEnds.error hvne hm rfl
            rw [if_neg hcap]
            obtain ⟨w, hw, hwf, hwd, hwo⟩ := (backRefCopy_eq (offset := assembleOffset lo hi) (matchlen := m + matchBias) (s := { v with ip := v.c - rest'.length })).2.2
              hof1 hof2 (by rw [hvout.1] at hcap; simpa using hcap) (fun a _ ha => by
                have := hvout.readable ha
                simpa [Readable] using this)
            simp only at hwf hwd hwo
            rw [hw] at hm
            simp only [Res.bind_ok, Res.finish_ok] at hm
            generalize hx : ({ w with seq := SeqPhase.token } : State) = x at hm
            have hxs : x.seq = .token := by rw [← hx]
            have hxsame : OnlyDecode v x := by rw [← hx, hwf]; rfl
            have hxl : x.l = v.l := by rw [hxsame]
            have hxc : x.c = v.c := by rw [hxsame]
            have hxip : x.ip = v.c - rest'.length := by rw [← hx, hwf]
            have hxop : x.op = v.op + (m + matchBias) := by rw [← hx, hwf]
            have hxout : DecPrefix (appendCopy (assembleOffset lo hi) (m + matchBias) (out ++ ext.take litlen)) x := by
              apply hvout.copy hof1 hof2 hxop
              · intro k hk; rw [← hx, readByte_seq, readByte_seq]; exact hwd k hk
              · intro a ha; rw [← hx, readByte_seq, hwo a (.inl ha), readByte_ip]
            have hxmsg : MsgTail rest' x := by
              have hd := hvmsg.drop (2 + (aoff.length - rest'.length)) (by simp; omega)
              rw [Nat.add_comm 2, List.drop_succ_cons, List.drop_succ_cons, ← hrest'] at hd
              refine ⟨by rw [hxip, hxc]; omega, fun j b hj => ?_⟩
              have := hd.2 j b hj
              simp only at this
              rw [hxip, readByte_congr (s := v) (by rw [hxsame]; rfl) (by rw [hxsame]; rfl)]
              rw [show v.c - rest'.length + j = v.ip + (aoff.length - rest'.length + 1 + 1) + j by omega]
              simpa using this
            rw [runStage_next hvne hm]
            have := ih rest' _ x f (by omega) (by omega) hxs hxmsg hxout (by rw [hxout.1, hxop, hxl]; rw [hvout.1] at hcap; omega)
            rw [hxl, hxc] at this
            exact this.trans hxsame

/-! ### The replay of abstract tokens -/

theorem replayTokens_eq (toks : List Token) : ∀ (out : List Byte) (s : State), DecPrefix out s → out.length ≤ s.l →
    match replay s.l toks out with
    | .ok o => ∃ t, replayTokens toks s = .ok () t ∧ OnlyDecode s t ∧ DecPrefix o t ∧ t.seq = s.seq ∧ t.ip = s.ip
    | .error k => ∃ t, replayTokens toks s = .raise k t ∧ OnlyDecode s t := by
  induction toks with
  | nil => intro out s ho hl; exact ⟨s, rfl, rfl, ho, rfl, rfl⟩
  | cons tk rest ih =>
    intro out s ho hl
    cases tk with
    | literal bs =>
      simp only [replay, replayTokens, ho.1]
      by_cases hc : s.l < s.op + bs.length
      · rw [if_pos hc, if_pos hc]; exact ⟨s, rfl, rfl⟩
      · rw [if_neg hc, if_neg hc]
        obtain ⟨u, hu⟩ := writeRun_succeeds (dst := .dec) (a := s.op) (bytes := bs) (s := s) (by simpa using hc)
        obtain ⟨hf, hout, hd⟩ := writeRun_ok hu
        simp only [hu, Res.ofExcept_ok, Res.bind_ok]
        generalize hv : ({ u with op := u.op + bs.length } : State) = v
        have hsame : OnlyDecode s v := by rw [← hv, hf]; rfl
        have hl' : v.l = s.l := by rw [hsame]
        have hop : v.op = s.op + bs.length := by rw [← hv, hf]; rfl
        have hvout : DecPrefix (out ++ bs) v := by
          apply ho.literal hop
          · intro j w hj; rw [← hv, readByte_op]; exact hd j w hj
          · intro a ha; rw [← hv, readByte_op]; exact hout a (.inl ha)
        have := ih (out ++ bs) v hvout (by rw [hvout.1, hop, hl']; omega)
        rw [hl'] at this
        have h1 : v.seq = s.seq := by rw [← hv, hf]; rfl
        have h2 : v.ip = s.ip := by rw [← hv, hf]; rfl
        split at this
        · obtain ⟨t, a, b, c, d, e⟩ := this; exact ⟨t, a, by rw [b, hsame]; rfl, c, by rw [d, h1], by rw [e, h2]⟩
        · obtain ⟨t, a, b⟩ := this; exact ⟨t, a, by rw [b, hsame]; rfl⟩
    | backRef o n =>
      simp only [replay, replayTokens, ho.1]
      by_cases hof : o = 0 ∨ s.op < o
      · rw [if_pos hof, (backRefCopy_eq (s := s)).1 hof]; exact ⟨s, rfl, rfl⟩
      rw [if_neg hof]
      by_cases hc : s.l < s.op + n
      · rw [if_pos hc, (backRefCopy_eq (s := s)).2.1 (by omega) (by omega) hc]; exact ⟨s, rfl, rfl⟩
      rw [if_neg hc]
      obtain ⟨u, hu, hf, hd, hout⟩ := (backRefCopy_eq (offset := o) (matchlen := n) (s := s)).2.2 (by omega) (by omega) (by omega) (fun a _ ha => ho.readable ha)
      simp only [hu, Res.bind_ok]
      have hsame : OnlyDecode s u := by rw [hf]; rfl
      have hl' : u.l = s.l := by rw [hsame]
      have hop : u.op = s.op + n := by rw [hf]
      have hvout : DecPrefix (appendCopy o n out) u := ho.copy (by omega) (by omega) hop hd (fun a ha => hout a (.inl ha))
      have := ih _ u hvout (by rw [hvout.1, hop, hl']; omega)
      rw [hl'] at this
      have h1 : u.seq = s.seq := by rw [hf]
      have h2 : u.ip = s.ip := by rw [hf]
      split at this
      · obtain ⟨t, a, b, c, d, e⟩ := this; exact ⟨t, a, by rw [b, hsame]; rfl, c, by rw [d, h1], by rw [e, h2]⟩
      · obtain ⟨t, a, b⟩ := this; exact ⟨t, a, by rw [b, hsame]; rfl⟩


/-! ### Frames: what an operation can change -/

theorem copyRun_frame {src dst : Space} {f b c k : Nat} {s t : State} (h : copyRun src dst f b c k s = .ok t) :
    t = s.setMem dst (t.mem dst) := by
  induction c generalizing k s with
  | zero => cases h; exact frame_refl dst _
  | succ c ih =>
    simp only [copyRun] at h
    split at h
    · cases h
    · split at h
      · cases h
      · next hw => exact frame_trans (writeByte_frame hw) (ih h)

/-- What a literal run or a back-reference copy can change. -/
def PartFrame (s : State) : Res Unit → Prop
  | .ok _ t => t = { s with ip := t.ip, op := t.op, dec := t.dec }
  | .raise _ t => t = { s with ip := t.ip }
  | .fault _ => True

theorem literalRun_frame (n : Nat) (s : State) : PartFrame s (literalRun n s) := by
  unfold literalRun
  split
  · rfl
  · split
    · rfl
    · cases h : copyRun .msg .dec s.ip s.op n 0 s with
      | error f => trivial
      | ok u => have := copyRun_frame h; show _ = _; rw [this]; rfl

theorem backRefCopy_frame (o n : Nat) (s : State) : PartFrame s (backRefCopy o n s) := by
  unfold backRefCopy
  split
  · rfl
  · split
    · rfl
    · cases h : copyRun .dec .dec (s.op - o) s.op n 0 s with
      | error f => trivial
      | ok u => have := copyRun_frame h; show _ = _; rw [this]; rfl

theorem readOffset_ok {s t : State} {v : Nat} (h : readOffset s = .ok v t) : t = { s with ip := s.ip + 2 } := by
  unfold readOffset at h
  by_cases hc : s.c < s.ip + 2
  · rw [if_pos hc] at h; cases h
  · rw [if_neg hc] at h
    cases h1 : readByte .msg s.ip s with
    | error f => simp [h1] at h
    | ok lo =>
      cases h2 : readByte .msg (s.ip + 1) s with
      | error f => simp [h1, h2] at h
      | ok hi => simp [h1, h2] at h; exact h.2.symm

theorem readOffset_raise {s t : State} {k : ErrorKind} (h : readOffset s = .raise k t) : t = s := by
  unfold readOffset at h
  by_cases hc : s.c < s.ip + 2
  · rw [if_pos hc] at h; cases h; rfl
  · rw [if_neg hc] at h
    cases h1 : readByte .msg s.ip s with
    | error f => simp [h1] at h
    | ok lo =>
      cases h2 : readByte .msg (s.ip + 1) s with
      | error f => simp [h1, h2] at h
      | ok hi => simp [h1, h2] at h

/-- What a step of the decode stage can change: it goes on, or ends in success, or in an error. -/
inductive DecodeFrame (s t : State) : Prop where
  | next (h : t = { s with ip := t.ip, op := t.op, seq := t.seq, dec := t.dec }) (hs : t.seq ≠ .delta)
  | success (h : t = { s with ip := t.ip, op := t.op, seq := .idle, dec := t.dec, fsm := .reconstructing })
  | error (kind : ErrorKind)
      (h : t = { s with ip := t.ip, op := t.op, seq := .idle, dec := t.dec, status := .terminated kind,
                        trace := s.trace ++ [.fail kind] })

theorem PartFrame.finish {s u : State} {r : Res Unit} {q : SeqPhase} (hu : u = { s with ip := u.ip }) (hq : q ≠ .delta)
    (h : PartFrame u r) {t : State} (ht : (r.bind fun _ s' => .ok () { s' with seq := q }).finish = .next t) :
    DecodeFrame s t := by
  cases r with
  | ok v w =>
    simp only [Res.bind_ok, Res.finish_ok, Host.Outcome.next.injEq] at ht
    subst ht
    exact .next (by rw [show w = _ from h, hu]) hq
  | raise k w =>
    simp only [Res.bind_raise, Res.finish_raise, Host.Outcome.next.injEq] at ht
    subst ht
    exact .error k (by rw [show w = _ from h, hu]; rfl)
  | fault f => simp at ht

theorem DecodeFrame.raise {s u : State} {k : ErrorKind} (hu : u = { s with ip := u.ip }) : DecodeFrame s (u.takeError k) :=
  .error k (by rw [hu]; rfl)

theorem runMicro_frame {op : MicroOp} {s t : State} (ha : ∀ i, op ≠ .addb i) (hb : ∀ i, op ≠ .subb i)
    (h : runMicro op s = .next t) : DecodeFrame s t := by
  cases op with
  | lit ll mm => exact PartFrame.finish rfl (by simp) (literalRun_frame _ _) h
  | litx mm =>
    simp only [runMicro, execLitx] at h
    have := readExtension_frame (left := s.c - (s.ip + 1)) (acc := 15) (s := { s with ip := s.ip + 1 })
    cases hr : readExtension (s.c - (s.ip + 1)) 15 { s with ip := s.ip + 1 } with
    | ok n u =>
      simp only [hr] at this h
      exact PartFrame.finish this.1 (by simp) (literalRun_frame _ _) h
    | raise k u =>
      simp only [hr] at this h
      simp only [Res.bind_raise, Res.finish_raise, Host.Outcome.next.injEq] at h
      rw [← h]
      exact .raise (by rw [this.2])
    | fault f => simp [hr] at h
  | ref mm =>
    simp only [runMicro, execRef] at h
    cases hr : readOffset s with
    | ok n u =>
      simp only [hr] at h
      exact PartFrame.finish (by rw [readOffset_ok hr]) (by simp) (backRefCopy_frame _ _ _) h
    | raise k u =>
      simp only [hr, Res.bind_raise, Res.finish_raise, Host.Outcome.next.injEq] at h
      rw [← h]
      exact .raise (by rw [readOffset_raise hr])
    | fault f => simp [hr] at h
  | refx =>
    simp only [runMicro, execRefx] at h
    cases hr : readOffset s with
    | ok n u =>
      simp only [hr, Res.bind_ok] at h
      have h2 := readExtension_frame (left := u.c - u.ip) (acc := 15) (s := u)
      cases hx : readExtension (u.c - u.ip) 15 u with
      | ok m v =>
        simp only [hx] at h2 h
        exact PartFrame.finish (by rw [h2.1, readOffset_ok hr]) (by simp) (backRefCopy_frame _ _ _) h
      | raise k v =>
        simp only [hx] at h2 h
        simp only [Res.bind_raise, Res.finish_raise, Host.Outcome.next.injEq] at h
        rw [← h]
        exact .raise (by rw [h2.2, readOffset_ok hr])
      | fault f => simp [hx] at h
    | raise k u =>
      simp only [hr, Res.bind_raise, Res.finish_raise, Host.Outcome.next.injEq] at h
      rw [← h]
      exact .raise (by rw [readOffset_raise hr])
    | fault f => simp [hr] at h
  | endStream =>
    simp only [runMicro, execEndStream, Host.Outcome.next.injEq] at h
    subst h
    exact .next rfl (by simp)
  | addb i => exact absurd rfl (ha i)
  | subb i => exact absurd rfl (hb i)

theorem runMicro_literalPart_frame {b : Byte} {s t : State} (h : runMicro (decodeLiteralPart b) s = .next t) :
    DecodeFrame s t :=
  runMicro_frame (by unfold decodeLiteralPart; split <;> simp) (by unfold decodeLiteralPart; split <;> simp) h

theorem runMicro_backRefPart_frame {b : Byte} {s t : State} (h : runMicro (decodeBackRefPart b) s = .next t) :
    DecodeFrame s t :=
  runMicro_frame (by unfold decodeBackRefPart; split <;> simp) (by unfold decodeBackRefPart; split <;> simp) h

theorem finishDecode_frame {s t : State} (h : finishDecode s = .next t) : DecodeFrame s t := by
  unfold finishDecode at h
  split at h
  · cases h; exact .success rfl
  · cases h; exact .error _ rfl

/-- What a fetch inside a stage can find. -/
theorem microStep_cases {s : State} :
    (s.seq = .idle ∧ microStep s = .next s) ∨
    (s.seq = .token ∧ s.ip < s.c ∧ ∃ b, readByte .msg s.ip s = .ok b ∧ microStep s = runMicro (decodeLiteralPart b) s) ∨
    (s.seq = .token ∧ s.ip < s.c ∧ ∃ f, readByte .msg s.ip s = .error f ∧ microStep s = .fault f) ∨
    (∃ b, s.seq = .backRef b ∧ s.ip < s.c ∧ microStep s = runMicro (decodeBackRefPart b) s) ∨
    ((s.seq = .token ∨ ∃ b, s.seq = .backRef b) ∧ s.c ≤ s.ip ∧ microStep s = .next { s with seq := .check }) ∨
    (s.seq = .check ∧ microStep s = finishDecode s) ∨
    (s.seq = .delta ∧ s.i < s.n ∧ ∃ sign, readSign s.i s = .ok sign ∧
      microStep s = runMicro (decodeSign sign s.i) { s with i := s.i + 1 }) ∨
    (s.seq = .delta ∧ s.i < s.n ∧ ∃ f, readSign s.i s = .error f ∧ microStep s = .fault f) ∨
    (s.seq = .delta ∧ s.n ≤ s.i ∧ microStep s = .next s.enterPresenting) := by
  cases hs : s.seq with
  | idle => simp [microStep, fetchMicro, hs]
  | token =>
    by_cases hc : s.ip < s.c
    · cases hr : readByte .msg s.ip s with
      | ok b => exact .inr (.inl ⟨rfl, hc, b, rfl, by simp only [microStep, fetchMicro, hs, if_pos hc, hr]⟩)
      | error f => exact .inr (.inr (.inl ⟨rfl, hc, f, rfl, by simp only [microStep, fetchMicro, hs, if_pos hc, hr]⟩))
    · exact .inr (.inr (.inr (.inr (.inl ⟨.inl rfl, by omega, by
        simp only [microStep, fetchMicro, hs, if_neg hc, runMicro, execEndStream]⟩))))
  | backRef b =>
    by_cases hc : s.ip < s.c
    · exact .inr (.inr (.inr (.inl ⟨b, rfl, hc, by simp only [microStep, fetchMicro, hs, if_pos hc]⟩)))
    · exact .inr (.inr (.inr (.inr (.inl ⟨.inr ⟨b, rfl⟩, by omega, by
        simp only [microStep, fetchMicro, hs, if_neg hc, runMicro, execEndStream]⟩))))
  | check => simp [microStep, fetchMicro, hs, closeStage]
  | delta =>
    by_cases hc : s.i < s.n
    · cases hr : readSign s.i s with
      | ok b =>
        exact .inr (.inr (.inr (.inr (.inr (.inr (.inl ⟨rfl, hc, b, rfl, by
          simp only [microStep, fetchMicro, hs, if_pos hc, hr]⟩))))))
      | error f =>
        exact .inr (.inr (.inr (.inr (.inr (.inr (.inr (.inl ⟨rfl, hc, f, rfl, by
          simp only [microStep, fetchMicro, hs, if_pos hc, hr]⟩)))))))
    · exact .inr (.inr (.inr (.inr (.inr (.inr (.inr (.inr ⟨rfl, by omega, by
        simp only [microStep, fetchMicro, hs, if_neg hc, closeStage, if_true]⟩)))))))

theorem microStep_frame {s t : State} (hd : s.seq ≠ .delta) (h : microStep s = .next t) : DecodeFrame s t := by
  rcases microStep_cases (s := s) with ⟨hs, hm⟩ | ⟨hs, -, b, -, hm⟩ | ⟨hs, -, f, -, hm⟩ | ⟨b, hs, -, hm⟩ | ⟨hs, -, hm⟩ |
    ⟨hs, hm⟩ | ⟨hs, -⟩ | ⟨hs, -⟩ | ⟨hs, -⟩
  · rw [hm] at h; cases h; exact .next rfl hd
  · exact runMicro_literalPart_frame (hm ▸ h)
  · rw [hm] at h; cases h
  · exact runMicro_backRefPart_frame (hm ▸ h)
  · rw [hm] at h; cases h; exact .next rfl (by simp)
  · exact finishDecode_frame (hm ▸ h)
  all_goals exact absurd hs hd

theorem DecodeFrame.trans {s u t : State} (h : u = { s with ip := u.ip, op := u.op, seq := u.seq, dec := u.dec })
    (g : DecodeFrame u t) : DecodeFrame s t := by
  cases g with
  | next g hs => exact .next (by rw [g, h]) hs
  | success g => exact .success (by rw [g, h])
  | error k g => exact .error k (by rw [g, h])

theorem runStage_frame {n : Nat} {s t : State} (hd : s.seq ≠ .delta) (h : runStage n s = .next t) : DecodeFrame s t := by
  induction n generalizing s with
  | zero => cases h; exact .next rfl hd
  | succ n ih =>
    rw [runStage] at h
    split at h
    · cases h; exact .next rfl hd
    · cases hm : microStep s with
      | next u =>
        simp only [hm] at h
        cases microStep_frame hd hm with
        | next hu hs => exact (ih hs h).trans hu
        | success hu => rw [runStage_idle n u (by rw [hu])] at h; cases h; exact .success hu
        | error k hu => rw [runStage_idle n u (by rw [hu])] at h; cases h; exact .error k hu
      | fault f => simp [hm] at h
      | refused f => simp [hm] at h

theorem replayTokens_frame {tokens : List Token} {s : State} :
    match replayTokens tokens s with
    | .ok _ t => t = { s with op := t.op, dec := t.dec }
    | .raise _ t => t = { s with op := t.op, dec := t.dec }
    | .fault _ => True := by
  induction tokens generalizing s with
  | nil => rfl
  | cons tk rest ih =>
    cases tk with
    | literal bs =>
      simp only [replayTokens]
      by_cases hc : s.l < s.op + bs.length
      · rw [if_pos hc]
      · rw [if_neg hc]
        cases hw : writeRun .dec s.op bs s with
        | error f => simp
        | ok u =>
          have hu := (writeRun_ok hw).1
          simp only [Res.ofExcept_ok, Res.bind_ok]
          have := ih (s := { u with op := u.op + bs.length })
          revert this
          cases replayTokens rest { u with op := u.op + bs.length } with
          | ok _ t => intro this; simp only at this ⊢; rw [this, hu]; rfl
          | raise _ t => intro this; simp only at this ⊢; rw [this, hu]; rfl
          | fault _ => intro _; trivial
    | backRef o n =>
      simp only [replayTokens]
      unfold backRefCopy
      by_cases h1 : o = 0 ∨ s.op < o
      · rw [if_pos h1]; rfl
      · rw [if_neg h1]
        by_cases h2 : s.l < s.op + n
        · rw [if_pos h2]; rfl
        · rw [if_neg h2]
          cases hc : copyRun .dec .dec (s.op - o) s.op n 0 s with
          | error f => simp
          | ok u =>
            have hu := copyRun_frame hc
            simp only [Res.ofExcept_ok, Res.bind_ok]
            have := ih (s := { u with op := u.op + n })
            revert this
            cases replayTokens rest { u with op := u.op + n } with
            | ok _ t => intro this; simp only at this ⊢; rw [this, hu]; rfl
            | raise _ t => intro this; simp only at this ⊢; rw [this, hu]; rfl
            | fault _ => intro _; trivial

theorem execDecodeP_cases {s t : State} (h : execDecodeP s = .next t) :
    (s.c = s.l ∧ t = { s with seq := .idle, dec := t.dec, fsm := .reconstructing }) ∨
    (s.c ≠ s.l ∧ t = s.takeError .sizeMismatch) := by
  unfold execDecodeP at h
  split at h
  · next hc =>
    cases hr : copyRun .msg .dec 0 0 s.l 0 s with
    | ok u =>
      simp only [hr, Res.ofExcept_ok, Res.bind_ok, Res.finish_ok, Host.Outcome.next.injEq] at h
      left
      refine ⟨hc, ?_⟩
      rw [← h, copyRun_frame hr]; rfl
    | error f => simp [hr] at h
  · next hc => cases h; exact .inr ⟨hc, rfl⟩

theorem decompressAbstract_frame {parse : List Byte → TokenStream} {s t : State}
    (h : decompressAbstract parse s = .next t) : DecodeFrame s t := by
  unfold decompressAbstract at h
  split at h
  · cases h
  · next message _ =>
    have hf := replayTokens_frame (tokens := (parse message).tokens) (s := { s with ip := 0, op := 0 })
    dsimp only at h
    split at h
    · next _ u hr =>
      simp only [hr] at hf
      split at h
      · cases h; exact .error _ (by rw [hf]; rfl)
      · exact (finishDecode_frame h).trans (by rw [hf])
    · next k u hr =>
      simp only [hr] at hf
      cases h; exact .error k (by rw [hf]; rfl)
    · cases h

theorem decompress_frame {format : TokenFormat} {s t : State} (h : decompress format s = .next t) : DecodeFrame s t := by
  cases format with
  | seq16 => exact (runStage_frame (s := { s with ip := 0, op := 0, seq := .token }) (by simp) h).trans rfl
  | other k => exact decompressAbstract_frame h

theorem execDecodeC_frame {s t : State} (h : execDecodeC s = .next t) : DecodeFrame s t := decompress_frame h

/-- `DECODE.C` under the default format is the run of the stage (R112). -/
theorem execDecodeC_seq16 {s : State} (h : s.params.tokenFormat = .seq16) :
    execDecodeC s = runStage (2 * s.c + 3) { s with ip := 0, op := 0, seq := .token } := by
  rw [execDecodeC, h]; rfl

/-- `DECODE.C` under another format is the replay of what its parser yields (R124). -/
theorem execDecodeC_other {s : State} {k : Nat} (h : s.params.tokenFormat = .other k) :
    execDecodeC s = decompressAbstract (parseOther k) s := by
  rw [execDecodeC, h]; rfl

end Sys2Proof.Machine
end

