-- ==== Sys2Proof/Laws/Delta.lean ====
section
/-! SUPPORT. The reconstruct stage: one byte, the loop of `RECON.D`, the loop of `RECON.R`, and what they can change. -/

open Sys2Proof

namespace Sys2Proof.Machine

/-- The byte that a sign bit makes of a frame byte and its delta byte (R142 to R144). -/
def deltaByte (sign : Bool) (r d : Byte) : Byte := if sign then sub8 r d else add8 r d

theorem runMicro_addb (i : Nat) (s : State) :
    runMicro (decodeSign false i) s = (Res.ofExcept (updateRefByte add8 i s)).finish := rfl
theorem runMicro_subb (i : Nat) (s : State) :
    runMicro (decodeSign true i) s = (Res.ofExcept (updateRefByte sub8 i s)).finish := rfl

/-- One pass of the loop of R145 (R142 to R144). -/
theorem runMicro_sign {sign : Bool} {i : Nat} {s : State} {r d : Byte} (hr : readByte .ref i s = .ok r)
    (hd : readByte .dec i s = .ok d) :
    ∃ t, runMicro (decodeSign sign i) s = .next t ∧ t = { s with ref := t.ref } ∧
      readByte .ref i t = .ok (deltaByte sign r d) ∧ (∀ a, a ≠ i → readByte .ref a t = readByte .ref a s) := by
  cases sign with
  | false =>
    obtain ⟨t, ht, h⟩ := updateRefByte_ok (f := add8) hr hd
    exact ⟨t, by rw [runMicro_addb, ht]; rfl, h⟩
  | true =>
    obtain ⟨t, ht, h⟩ := updateRefByte_ok (f := sub8) hr hd
    exact ⟨t, by rw [runMicro_subb, ht]; rfl, h⟩

theorem readSign_ok {i : Nat} {b : Byte} {s : State} (h : readByte .dec (s.n + i / 8) s = .ok b) :
    readSign i s = .ok (b.getLsbD (i % 8)) := by
  simp only [readSign, h, signOf_eq]

theorem microStep_delta {sign : Bool} {s : State} (hs : s.seq = .delta) (hi : s.i < s.n) (h : readSign s.i s = .ok sign) :
    microStep s = runMicro (decodeSign sign s.i) { s with i := s.i + 1 } := by
  simp only [microStep, fetchMicro, hs, if_pos hi, h]

/-- The loop of R145 from its index on. -/
theorem runStage_delta {fuel : Nat} {s : State} (hs : s.seq = .delta) (hi : s.i ≤ s.n) (hf : s.n - s.i < fuel)
    (hread : ∀ a, a < s.n + bitmapBytes s.n → Readable .dec a s) :
    ∃ t, runStage fuel s = .next t ∧
      t = { s with i := s.n, seq := .idle, fsm := .presenting, presented := false, ref := t.ref } ∧
      (∀ j, j < s.i → readByte .ref j t = readByte .ref j s) ∧
      (∀ j r d b, s.i ≤ j → j < s.n → readByte .ref j s = .ok r → readByte .dec j s = .ok d →
        readByte .dec (s.n + j / 8) s = .ok b → readByte .ref j t = .ok (deltaByte (b.getLsbD (j % 8)) r d)) := by
  obtain ⟨fuel, rfl⟩ : ∃ f, fuel = f + 1 := ⟨fuel - 1, by omega⟩
  induction fuel generalizing s with
  | zero =>
    have he : s.i = s.n := by omega
    have hm : microStep s = .next s.enterPresenting := by
      simp only [microStep, fetchMicro, hs, he, Nat.lt_irrefl, if_false, closeStage, if_true]
    refine ⟨s.enterPresenting, by rw [runStage_next (by simp [hs]) hm]; rfl, ?_, fun j _ => rfl, fun j _ _ _ h1 h2 => by omega⟩
    simp [State.enterPresenting, ← he]
  | succ fuel ih =>
    by_cases he : s.i = s.n
    · have hm : microStep s = .next s.enterPresenting := by
        simp only [microStep, fetchMicro, hs, he, Nat.lt_irrefl, if_false, closeStage, if_true]
      refine ⟨s.enterPresenting, by rw [runStage_next (by simp [hs]) hm]; exact runStage_idle _ _ rfl, ?_, fun j _ => rfl,
        fun j _ _ _ h1 h2 => by omega⟩
      simp [State.enterPresenting, ← he]
    · have hlt : s.i < s.n := by omega
      have hb : s.i / 8 < bitmapBytes s.n := by unfold bitmapBytes; omega
      obtain ⟨b, hb⟩ := hread (s.n + s.i / 8) (by omega)
      obtain ⟨d, hd⟩ := hread s.i (by omega)
      obtain ⟨r, hr⟩ := readByte_ref hlt
      obtain ⟨u, hu, huf, hui, huo⟩ := runMicro_sign (sign := b.getLsbD (s.i % 8)) (s := { s with i := s.i + 1 }) (i := s.i)
        hr hd
      have hm : microStep s = .next u := (microStep_delta hs hlt (readSign_ok hb)).trans hu
      have hui' : u.i = s.i + 1 := by rw [huf]
      have hun : u.n = s.n := by rw [huf]
      have hdec : ∀ a, readByte .dec a u = readByte .dec a s := fun a =>
        readByte_congr (by rw [huf]; rfl) (by rw [huf]; rfl) a
      obtain ⟨t, ht, htf, hlo, hhi⟩ := ih (s := u) (by rw [huf]; exact hs) (by omega)
        (fun a ha => by rw [hun] at ha; simpa only [Readable, hdec] using hread a ha) (by omega)
      refine ⟨t, by rw [runStage_next (by simp [hs]) hm, ht], by rw [htf, huf], fun j hj => ?_, fun j r' d' b' h1 h2 hr' hd' hb' => ?_⟩
      · rw [hlo j (by omega), huo j (by omega)]; rfl
      · by_cases hj : j = s.i
        · subst hj
          rw [hlo s.i (by omega), hui]
          rw [hr] at hr'; rw [hd] at hd'; rw [hb] at hb'
          cases hr'; cases hd'; cases hb'
          rfl
        · refine hhi j r' d' b' (by omega) (by omega) ?_ (by rw [hdec]; exact hd') (by rw [hdec, hun]; exact hb')
          rw [huo j hj]; exact hr'

/-- The loop of R146 from its index on. -/
theorem replaceRun_eq {count : Nat} {s : State} (hi : s.i + count = s.n) (hread : ∀ a, a < s.n → Readable .dec a s) :
    ∃ t, replaceRun count s = .ok t ∧ t = { s with i := s.n, ref := t.ref } ∧
      (∀ j, j < s.i → readByte .ref j t = readByte .ref j s) ∧
      (∀ j, s.i ≤ j → j < s.n → readByte .ref j t = readByte .dec j s) := by
  induction count generalizing s with
  | zero =>
    have h0 : s.n = s.i := by omega
    exact ⟨s, rfl, by cases s; simp only at h0; simp [h0], fun _ _ => rfl, fun j h1 h2 => by omega⟩
  | succ count ih =>
    obtain ⟨v, hv⟩ := hread s.i (by omega)
    obtain ⟨u, hu⟩ := writeByte_of_lt (sp := .ref) (a := s.i) (s := s) (by show s.i < s.n; omega) v
    have huf := writeByte_frame hu
    have hun : u.n = s.n := by rw [huf]; rfl
    have hui : u.i = s.i := by rw [huf]; rfl
    have hdec : ∀ a, readByte .dec a { u with i := u.i + 1 } = readByte .dec a s := fun a =>
      readByte_congr (by rw [huf]; rfl) (by rw [huf]; rfl) a
    obtain ⟨t, ht, htf, hlo, hhi⟩ := ih (s := { u with i := u.i + 1 }) (by simp only; omega)
      (fun a ha => by simp only [hun] at ha; simpa only [Readable, hdec] using hread a ha)
    refine ⟨t, by simp only [replaceRun, hv, hu, ht], by rw [htf, huf]; rfl, fun j hj => ?_, fun j h1 h2 => ?_⟩
    · rw [hlo j (by simp only; omega)]
      exact (readByte_i _ _ _ _).trans (readByte_writeByte_other hu (sp' := .ref) (x := j) (.inr (by omega)))
    · by_cases hj : j = s.i
      · subst hj
        rw [hlo s.i (by simp only; omega), hv]
        exact (readByte_i _ _ _ _).trans (readByte_writeByte_same hu)
      · rw [hhi j (by simp only; omega) (by simp only; omega), hdec]

/-! ### Frames -/

theorem updateRefByte_frame {f : Byte → Byte → Byte} {i : Nat} {s t : State} (h : updateRefByte f i s = .ok t) :
    t = { s with ref := t.ref } := by
  unfold updateRefByte at h
  split at h
  · cases h
  · split at h
    · cases h
    · rw [writeByte_frame h]; rfl

theorem runMicro_sign_frame {sign : Bool} {i : Nat} {s t : State} (h : runMicro (decodeSign sign i) s = .next t) :
    t = { s with ref := t.ref } := by
  cases sign with
  | false =>
    rw [runMicro_addb] at h
    cases hu : updateRefByte add8 i s with
    | error f => simp [hu] at h
    | ok u => simp only [hu, Res.ofExcept_ok, Res.finish_ok] at h; cases h; exact updateRefByte_frame hu
  | true =>
    rw [runMicro_subb] at h
    cases hu : updateRefByte sub8 i s with
    | error f => simp [hu] at h
    | ok u => simp only [hu, Res.ofExcept_ok, Res.finish_ok] at h; cases h; exact updateRefByte_frame hu

/-- What a step of the loop of R145 can change. -/
inductive DeltaFrame (s t : State) : Prop where
  | next (h : t = { s with i := t.i, ref := t.ref })
  | done (h : t = { s with i := t.i, ref := t.ref, seq := .idle, fsm := .presenting, presented := false })

theorem microStep_delta_frame {s t : State} (hd : s.seq = .delta) (h : microStep s = .next t) : DeltaFrame s t := by
  rcases microStep_cases (s := s) with ⟨hs, -⟩ | ⟨hs, -⟩ | ⟨hs, -⟩ | ⟨b, hs, -⟩ | ⟨hs | ⟨b, hs⟩, -⟩ |
    ⟨hs, -⟩ | ⟨-, -, b, -, hm⟩ | ⟨-, -, f, -, hm⟩ | ⟨-, -, hm⟩
  iterate 7 (rw [hs] at hd; cases hd)
  · rw [hm] at h
    exact .next (by rw [runMicro_sign_frame h])
  · rw [hm] at h; cases h
  · rw [hm] at h; cases h; exact .done rfl

theorem runStage_delta_frame {n : Nat} {s t : State} (hd : s.seq = .delta) (h : runStage n s = .next t) : DeltaFrame s t := by
  induction n generalizing s with
  | zero => cases h; exact .next rfl
  | succ n ih =>
    rw [runStage, if_neg (by simp [hd])] at h
    cases hm : microStep s with
    | next u =>
      simp only [hm] at h
      cases microStep_delta_frame hd hm with
      | next hu =>
        cases ih (by rw [hu]; exact hd) h with
        | next ht => exact .next (by rw [ht, hu])
        | done ht => exact .done (by rw [ht, hu])
      | done hu => rw [runStage_idle n u (by rw [hu])] at h; cases h; exact .done hu
    | fault f => simp [hm] at h
    | refused f => simp [hm] at h

theorem replaceRun_frame {count : Nat} {s t : State} (h : replaceRun count s = .ok t) : t = { s with i := t.i, ref := t.ref } := by
  induction count generalizing s with
  | zero => cases h; rfl
  | succ count ih =>
    simp only [replaceRun] at h
    split at h
    · cases h
    · split at h
      · cases h
      · next hw =>
        rw [ih h, writeByte_frame hw]; rfl

theorem execReconR_frame {s t : State} (h : execReconR s = .next t) :
    t = { s with i := t.i, ref := t.ref, seq := .idle, fsm := .presenting, presented := false } := by
  unfold execReconR at h
  cases hr : replaceRun s.n { s with i := 0 } with
  | error f => simp [hr] at h
  | ok u =>
    simp only [hr, Res.ofExcept_ok, Res.bind_ok, Res.finish_ok, Host.Outcome.next.injEq] at h
    rw [← h, replaceRun_frame hr]; rfl

end Sys2Proof.Machine
end

