-- ==== Sys2Proof/Laws/Step.lean ====
section
/-! SUPPORT. What one step can do, said once: every later proof about `step` cites `step_cases`. -/

open Sys2Proof

namespace Sys2Proof.Machine

/-- Inside a stage a step is the stage's next operation. -/
theorem step_micro {s : State} (h : s.seq ≠ .idle) : step s = microStep s := by
  unfold step fetch
  rw [if_neg h]
  unfold microStep
  cases fetchMicro s with
  | run op s' => cases op <;> rfl
  | closeStage s' => rfl
  | wait s' => rfl
  | fault f => rfl

/-- Between stages with no event, a step is the internal step that is enabled. -/
theorem step_quiet {s : State} (h : s.seq = .idle) (hq : s.inputs = [] ∨ ∃ rest, s.inputs = .quiet :: rest) :
    step s = match selectInternal s with
      | some x => exec (decode x) { s with inputs := s.inputs.tail }
      | none => .next { s with inputs := s.inputs.tail } := by
  unfold step fetch
  rw [if_pos h]
  unfold fetchBoundary
  rcases hq with hq | ⟨rest, hq⟩
  · simp only [hq, List.tail_nil]
    have : ({ s with inputs := [] } : State) = s := by rw [← hq]
    rw [this]
    cases selectInternal s <;> rfl
  · simp only [hq, List.tail_cons]
    cases selectInternal s <;> rfl

/-- Between stages a delivered event is what the step takes. -/
theorem step_event {s : State} {e : InEvent} {rest : List Slot} (h : s.seq = .idle) (hq : s.inputs = .event e :: rest) :
    step s = match selectEvent e s with
      | some x => exec (decode x) { s with inputs := rest }
      | none => .next { s with inputs := rest } := by
  unfold step fetch
  rw [if_pos h]
  unfold fetchBoundary
  simp only [hq]
  cases selectEvent e s <;> rfl

theorem inputs_cases (s : State) :
    (s.inputs = [] ∨ ∃ rest, s.inputs = .quiet :: rest) ∨ ∃ e rest, s.inputs = .event e :: rest := by
  match s.inputs with
  | [] => exact .inl (.inl rfl)
  | .quiet :: rest => exact .inl (.inr ⟨rest, rfl⟩)
  | .event e :: rest => exact .inr ⟨e, rest, rfl⟩

/-- Everything a step can be (R161 to R178, R28): `o` is what it answers. -/
inductive StepCase (s : State) (o : Outcome) : Prop where
  | micro (hs : s.seq ≠ .idle) (h : o = microStep s)
  | wait (hs : s.seq = .idle) (h : o = .next { s with inputs := s.inputs.tail })
  | decodeC (hs : s.seq = .idle) (ha : s.status = .active) (hf : s.fsm = .decompressing) (hc : s.cfg.compression = true)
      (h : o = execDecodeC { s with inputs := s.inputs.tail })
  | decodeP (hs : s.seq = .idle) (ha : s.status = .active) (hf : s.fsm = .decompressing) (hc : s.cfg.compression = false)
      (h : o = execDecodeP { s with inputs := s.inputs.tail })
  | reconD (hs : s.seq = .idle) (ha : s.status = .active) (hf : s.fsm = .reconstructing) (hd : s.cfg.delta = true)
      (h : o = execReconD { s with inputs := s.inputs.tail })
  | reconR (hs : s.seq = .idle) (ha : s.status = .active) (hf : s.fsm = .reconstructing) (hd : s.cfg.delta = false)
      (h : o = execReconR { s with inputs := s.inputs.tail })
  | present (hs : s.seq = .idle) (ha : s.status = .active) (hf : s.fsm = .presenting) (hp : s.presented = false)
      (h : o = execPresent { s with inputs := s.inputs.tail })
  | ack (hs : s.seq = .idle) (ha : s.status = .active) (hf : s.fsm = .presenting) (hp : s.presented = true)
      (h : o = execAck { s with inputs := s.inputs.tail })
  | start (cfg : SessionConfig) (rest : List Slot) (hs : s.seq = .idle) (hi : s.inputs = .event (.sessionStart cfg) :: rest)
      (h : o = execStart cfg { s with inputs := rest })
  | recv (bytes : List Byte) (rest : List Slot) (hs : s.seq = .idle) (hi : s.inputs = .event (.message bytes) :: rest)
      (hw : s.awaitingFrame = true) (h : o = execRecv bytes { s with inputs := rest })
  | abort (kind : ErrorKind) (hs : s.seq = .idle) (ha : s.status = .active)
      (h : o = .next ({ s with inputs := s.inputs.tail }.takeError kind))

theorem step_cases (s : State) : StepCase s (step s) := by
  by_cases hs : s.seq = .idle
  · rcases inputs_cases s with hq | ⟨e, rest, hq⟩
    · rw [step_quiet hs hq]
      by_cases ha : s.status = .active
      · cases hf : s.fsm with
        | awaitingFrame => exact .wait hs (by simp [selectInternal, ha, hf])
        | decompressing =>
          cases hc : s.cfg.compression with
          | true => exact .decodeC hs ha hf hc (by simp [selectInternal, ha, hf, hc, decode, exec])
          | false => exact .decodeP hs ha hf hc (by simp [selectInternal, ha, hf, hc, decode, exec])
        | reconstructing =>
          cases hd : s.cfg.delta with
          | true => exact .reconD hs ha hf hd (by simp [selectInternal, ha, hf, hd, decode, exec])
          | false => exact .reconR hs ha hf hd (by simp [selectInternal, ha, hf, hd, decode, exec])
        | presenting =>
          cases hp : s.presented with
          | true => exact .ack hs ha hf hp (by simp [selectInternal, ha, hf, hp, decode, exec])
          | false => exact .present hs ha hf hp (by simp [selectInternal, ha, hf, hp, decode, exec])
      · exact .wait hs (by simp [selectInternal, ha])
    · rw [step_event hs hq]
      have htail : rest = s.inputs.tail := by rw [hq]; rfl
      cases e with
      | sessionStart cfg => exact .start cfg rest hs hq rfl
      | message bytes =>
        by_cases hw : s.awaitingFrame = true
        · exact .recv bytes rest hs hq hw (by simp [selectEvent, hw, decode, exec])
        · by_cases ha : s.status = .active
          · exact .abort .protocolViolation hs ha (by simp [selectEvent, hw, ha, decode, exec, execAbort, htail])
          · exact .wait hs (by simp [selectEvent, hw, ha, htail])
      | channelClosed =>
        by_cases ha : s.status = .active
        · exact .abort .channelClosed hs ha (by simp [selectEvent, ha, decode, exec, execAbort, htail])
        · exact .wait hs (by simp [selectEvent, ha, htail])
      | timeoutExpired =>
        by_cases hw : s.awaitingFrame = true
        · have ha : s.status = .active := by simp [State.awaitingFrame] at hw; exact hw.1
          exact .abort .timeout hs ha (by simp [selectEvent, hw, decode, exec, execAbort, htail])
        · exact .wait hs (by simp [selectEvent, hw, htail])
  · exact .micro hs (step_micro hs)

/-! ### Contents -/

theorem contents_congr {sp : Space} {s t : State} (hs : t.size sp = s.size sp) (hm : t.mem sp = s.mem sp) :
    contents sp t = contents sp s := by
  have key : ∀ count a, readRun sp count a t = readRun sp count a s := by
    intro count
    induction count with
    | zero => intro a; rfl
    | succ count ih => intro a; simp only [readRun, readByte_congr hs hm, ih]
  unfold contents
  rw [hs, key]

/-! ### The controller's operations -/

theorem execStart_cases {cfg : SessionConfig} {s : State} :
    (acceptable cfg s.params = true ∧ execStart cfg s = .next (startSession cfg s)) ∨
    (acceptable cfg s.params = false ∧ execStart cfg s = .next (s.takeError .configRefused)) := by
  unfold execStart
  cases acceptable cfg s.params <;> simp

theorem execRecv_cases {bytes : List Byte} {s : State} :
    (fitsMessage bytes.length s.params = true ∧
      execRecv bytes s = .next { s with msg := Memory.ofBytes 0 bytes, c := bytes.length, fsm := .decompressing }) ∨
    (fitsMessage bytes.length s.params = false ∧ execRecv bytes s = .next (s.takeError .sizeMismatch)) := by
  unfold execRecv
  cases fitsMessage bytes.length s.params <;> simp

theorem execPresent_eq (s : State) : ∃ bytes, contents .ref s = .ok bytes ∧
    execPresent s = .next { s with presented := true, trace := s.trace ++ [.present s.cfg.w s.cfg.h bytes] } := by
  obtain ⟨bytes, h⟩ := contents_ref s
  have h' : readRun .ref s.n 0 s = .ok bytes := h
  exact ⟨bytes, h, by simp [execPresent, h', State.emit]⟩

theorem acceptable_iff {cfg : SessionConfig} {p : Params} :
    acceptable cfg p = true ↔ cfg.w ≠ 0 ∧ cfg.h ≠ 0 ∧ decodedBytes cfg ≤ p.maxDecodedBytes := by
  simp only [acceptable, decide_eq_true_eq]

end Sys2Proof.Machine
end

