-- ==== Sys2Proof/Laws/Invariant.lean ====
section
/-! SUPPORT. What the operations inside a stage keep of the invariant `Inv`. -/

open Sys2Proof

namespace Sys2Proof.Machine

/-! ### The canonical form and the bounds of the spaces -/

theorem spaceOk_congr {sp : Space} {s t : State} (hs : t.size sp = s.size sp) (hm : t.mem sp = s.mem sp) (h : SpaceOk sp s) :
    SpaceOk sp t := by
  unfold SpaceOk at *
  rw [hs, hm]
  exact h

theorem literalRun_spaceOk {n : Nat} {s t : State} (h : literalRun n s = .ok () t) {sp : Space} (hs : SpaceOk sp s) :
    SpaceOk sp t := by
  unfold literalRun at h
  split at h
  · cases h
  · split at h
    · cases h
    · cases hc : copyRun .msg .dec s.ip s.op n 0 s with
      | error f => simp [hc] at h
      | ok u =>
        simp only [hc, Res.ofExcept_ok, Res.bind_ok, Res.ok.injEq, true_and] at h
        rw [← h]
        exact spaceOk_congr (by cases sp <;> rfl) (by cases sp <;> rfl) (copyRun_spaceOk hc sp hs)

theorem backRefCopy_spaceOk {o n : Nat} {s t : State} (h : backRefCopy o n s = .ok () t) {sp : Space} (hs : SpaceOk sp s) :
    SpaceOk sp t := by
  unfold backRefCopy at h
  split at h
  · cases h
  · split at h
    · cases h
    · cases hc : copyRun .dec .dec (s.op - o) s.op n 0 s with
      | error f => simp [hc] at h
      | ok u =>
        simp only [hc, Res.ofExcept_ok, Res.bind_ok, Res.ok.injEq, true_and] at h
        rw [← h]
        exact spaceOk_congr (by cases sp <;> rfl) (by cases sp <;> rfl) (copyRun_spaceOk hc sp hs)

/-- The replay keeps every space canonical and inside its bounds, also up to an error. -/
theorem replayTokens_spaceOk {tokens : List Token} {s : State} (hs : ∀ sp, SpaceOk sp s) :
    match replayTokens tokens s with
    | .ok _ t => ∀ sp, SpaceOk sp t
    | .raise _ t => ∀ sp, SpaceOk sp t
    | .fault _ => True := by
  induction tokens generalizing s with
  | nil => exact hs
  | cons tk rest ih =>
    cases tk with
    | literal bs =>
      simp only [replayTokens]
      by_cases hc : s.l < s.op + bs.length
      · rw [if_pos hc]; exact hs
      · rw [if_neg hc]
        cases hw : writeRun .dec s.op bs s with
        | error f => trivial
        | ok u =>
          exact ih fun sp => spaceOk_congr (by cases sp <;> rfl) (by cases sp <;> rfl) (writeRun_spaceOk hw sp (hs sp))
    | backRef o n =>
      simp only [replayTokens]
      cases hc : backRefCopy o n s with
      | ok _ u => exact ih fun sp => backRefCopy_spaceOk hc (hs sp)
      | raise k u =>
        have hf := backRefCopy_frame o n s
        rw [hc] at hf
        intro sp
        exact spaceOk_congr (s := s) (by rw [show u = _ from hf]; cases sp <;> rfl) (by rw [show u = _ from hf]; cases sp <;> rfl) (hs sp)
      | fault f => trivial

theorem runMicro_sign_spaceOk {sign : Bool} {i : Nat} {s t : State} (h : runMicro (decodeSign sign i) s = .next t)
    {sp : Space} (hs : SpaceOk sp s) : SpaceOk sp t := by
  have key : ∀ f : Byte → Byte → Byte, ∀ u, updateRefByte f i s = .ok u → SpaceOk sp u := by
    intro f u hu
    unfold updateRefByte at hu
    split at hu
    · cases hu
    · split at hu
      · cases hu
      · exact writeByte_spaceOk hu sp hs
  cases sign with
  | false =>
    rw [runMicro_addb] at h
    cases hu : updateRefByte add8 i s with
    | error f => simp [hu] at h
    | ok u => simp only [hu, Res.ofExcept_ok, Res.finish_ok] at h; cases h; exact key _ _ hu
  | true =>
    rw [runMicro_subb] at h
    cases hu : updateRefByte sub8 i s with
    | error f => simp [hu] at h
    | ok u => simp only [hu, Res.ofExcept_ok, Res.finish_ok] at h; cases h; exact key _ _ hu

/-! ### The invariant -/

/-- A state outside an active session meets the invariant if its sizes and spaces do. -/
theorem Inv.of_inactive {s : State} (hn : s.n = frameBytes s.cfg) (hm : s.m = bitmapBytes s.n) (hl : s.l = decodedBytes s.cfg)
    (hsp : ∀ sp, SpaceOk sp s) (ha : s.status ≠ .active) (hs : s.seq = .idle) : Inv s where
  sizeN := hn
  sizeM := hm
  sizeL := hl
  spaces := hsp
  accepted h := absurd h ha
  message h := absurd h ha
  decoded h := absurd h ha
  decoding h := by rw [hs] at h; rcases h with h | ⟨t, h⟩ | h <;> cases h
  format h := by rw [hs] at h; rcases h with h | ⟨t, h⟩ | h <;> cases h
  ended h := by rw [hs] at h; cases h
  delta h := by rw [hs] at h; cases h

/-- No rule of the invariant is about the schedule. -/
theorem Inv.with_inputs {s : State} (h : Inv s) (x : List Slot) : Inv { s with inputs := x } where
  sizeN := h.sizeN
  sizeM := h.sizeM
  sizeL := h.sizeL
  spaces sp := spaceOk_congr (s := s) (by cases sp <;> rfl) (by cases sp <;> rfl) (h.spaces sp)
  accepted := h.accepted
  message := h.message
  decoded := h.decoded
  decoding := h.decoding
  format := h.format
  ended := h.ended
  delta := h.delta

/-- Between stages, what is left of the invariant. -/
theorem Inv.of_idle {t : State} (hn : t.n = frameBytes t.cfg) (hm : t.m = bitmapBytes t.n) (hl : t.l = decodedBytes t.cfg)
    (hsp : ∀ sp, SpaceOk sp t) (hacc : t.status = .active → acceptable t.cfg t.params = true) (hs : t.seq = .idle)
    (hmsg : t.status = .active → t.fsm = .decompressing →
    fitsMessage t.c t.params = true ∧ ∀ a, a < t.c → Readable .msg a t)
    (hdec : t.status = .active → t.fsm = .reconstructing → ∀ a, a < t.l → Readable .dec a t) : Inv t where
  sizeN := hn
  sizeM := hm
  sizeL := hl
  spaces := hsp
  accepted := hacc
  message := hmsg
  decoded := hdec
  decoding h := by rw [hs] at h; rcases h with h | ⟨t, h⟩ | h <;> cases h
  format h := by rw [hs] at h; rcases h with h | ⟨t, h⟩ | h <;> cases h
  ended h := by rw [hs] at h; cases h
  delta h := by rw [hs] at h; cases h

/-- Taking an error keeps the invariant, wherever the pointers stand. -/
theorem Inv.takeError {s u : State} (h : Inv s) (hu : u = { s with ip := u.ip }) (k : ErrorKind) : Inv (u.takeError k) := by
  refine .of_inactive ?_ ?_ ?_ (fun sp => spaceOk_congr (s := s) ?_ ?_ (h.spaces sp)) (by simp) rfl
  · rw [hu]; exact h.sizeN
  · rw [hu]; exact h.sizeM
  · rw [hu]; exact h.sizeL
  · rw [hu]; cases sp <;> rfl
  · rw [hu]; cases sp <;> rfl

/-- Outside an active session the sequencer stands idle. -/
theorem Inv.idle {s : State} (h : Inv s) (ha : s.status ≠ .active) : s.seq = .idle := by
  cases hs : s.seq with
  | idle => rfl
  | token => exact absurd (h.decoding (.inl hs)).1 ha
  | backRef b => exact absurd (h.decoding (.inr (.inl ⟨b, hs⟩))).1 ha
  | check => exact absurd (h.decoding (.inr (.inr hs))).1 ha
  | delta => exact absurd (h.delta hs).1 ha

/-- While a message is decoded, its rest from the input pointer on is a list of bytes. -/
theorem Inv.msgTail {s : State} (h : Inv s) (ha : s.status = .active) (hf : s.fsm = .decompressing) (hip : s.ip ≤ s.c) :
    ∃ rest, MsgTail rest s := by
  obtain ⟨bytes, hb⟩ := readRun_succeeds (src := .msg) (count := s.c - s.ip) (a := s.ip) (s := s) (fun j hj =>
    (h.message ha hf).2 _ (by omega))
  obtain ⟨h1, h2⟩ := readRun_ok.1 hb
  exact ⟨bytes, by omega, h2⟩

theorem Inv.decode_next {s t : State} (h : Inv s) (hf : t = { s with ip := t.ip, op := t.op, seq := t.seq, dec := t.dec })
    (ha : s.status = .active) (hd : s.fsm = .decompressing) (hc : s.cfg.compression = true)
    (hfmt : s.params.tokenFormat = .seq16)
    (hs : t.seq = .token ∨ ∃ b, t.seq = .backRef b) (hip : t.ip ≤ s.c) (hop : t.op ≤ s.l)
    (hr : ∀ a, a < t.op → Readable .dec a t) (hsp : ∀ sp, SpaceOk sp t) : Inv t where
  sizeN := by rw [hf]; exact h.sizeN
  sizeM := by rw [hf]; exact h.sizeM
  sizeL := by rw [hf]; exact h.sizeL
  spaces := hsp
  accepted _ := by have := h.accepted ha; rw [hf]; exact this
  message _ _ := by
    have := h.message ha hd
    refine ⟨by rw [hf]; exact this.1, fun a hlt => ?_⟩
    have := this.2 a (by rw [hf] at hlt; exact hlt)
    unfold Readable at *
    rwa [readByte_congr (s := s) (by rw [hf]; rfl) (by rw [hf]; rfl)]
  decoded _ hx := by rw [hf] at hx; rw [hd] at hx; cases hx
  decoding _ := by
    refine ⟨by rw [hf]; exact ha, by rw [hf]; exact hd, by rw [hf]; exact hc, ?_, ?_, hr⟩
    · have : t.c = s.c := by rw [hf]
      omega
    · have : t.l = s.l := by rw [hf]
      omega
  format _ := by rw [hf]; exact hfmt
  ended hx := by rcases hs with hs | ⟨b, hs⟩ <;> rw [hs] at hx <;> cases hx
  delta hx := by rcases hs with hs | ⟨b, hs⟩ <;> rw [hs] at hx <;> cases hx

/-- Inside a stage, a step from a state that meets the invariant answers a state that meets it. -/
theorem microStep_inv {s : State} (h : Inv s) : ∃ t, microStep s = .next t ∧ Inv t := by
  rcases microStep_cases (s := s) with ⟨hs, hm⟩ | ⟨hs, hc, b, hb, hm⟩ | ⟨hs, hc, f, hr, hm⟩ | ⟨b, hs, hc, hm⟩ | ⟨hs, hc, hm⟩ |
    ⟨hs, hm⟩ | ⟨hs, hi, sg, hsg, hm⟩ | ⟨hs, hi, f, hf, hm⟩ | ⟨hs, hi, hm⟩
  · exact ⟨s, hm, h⟩
  · obtain ⟨ha, hd, hcomp, hip, hop, hread⟩ := h.decoding (.inl hs)
    obtain ⟨rest, hrest⟩ := h.msgTail ha hd hip
    have h1 := hrest.1
    cases rest with
    | nil => simp at h1; omega
    | cons b' after =>
      have hb' := hrest.2 0 b' rfl
      rw [Nat.add_zero, hb] at hb'
      cases hb'
      rw [litPart_eq hrest] at hm
      simp only [List.length_cons] at h1
      cases ht : takeLength (tokenLL b) after with
      | none => simp only [ht] at hm; exact ⟨_, hm, h.takeError rfl _⟩
      | some p =>
        obtain ⟨n, ext⟩ := p
        obtain ⟨hle, hext⟩ := takeLength_rest ht
        simp only [ht] at hm
        by_cases htr : s.c < s.c - ext.length + n
        · rw [(literalRun_eq (s := { s with ip := s.c - ext.length })).1 htr] at hm
          exact ⟨_, hm, h.takeError rfl _⟩
        by_cases hsz : s.l < s.op + n
        · rw [(literalRun_eq (s := { s with ip := s.c - ext.length })).2.1 (by simp only; omega) hsz] at hm
          exact ⟨_, hm, h.takeError rfl _⟩
        obtain ⟨u, hu, huf, hud, huo⟩ := (literalRun_eq (litlen := n) (s := { s with ip := s.c - ext.length })).2.2
          (by simp only; omega) (by simp only; omega) (fun k hk => by
            have := (h.message ha hd).2 (s.c - ext.length + k) (by omega)
            simpa [Readable] using this)
        simp only at huf hud huo
        simp only [hu, Res.bind_ok, Res.finish_ok] at hm
        refine ⟨_, hm, h.decode_next (by simp only; rw [huf]) ha hd hcomp (h.format (.inl hs)) (.inr ⟨b, rfl⟩) ?_ ?_ (fun a hlt => ?_) (fun sp => ?_)⟩
        · simp only; rw [huf]; simp only; omega
        · simp only; rw [huf]; simp only; omega
        · have hop' : u.op = s.op + n := by rw [huf]
          simp only [hop'] at hlt
          unfold Readable
          rw [readByte_seq]
          by_cases hx : a < s.op
          · rw [huo a (.inl hx), readByte_ip]; exact hread a hx
          · have := hud (a - s.op) (by omega)
            rw [show s.op + (a - s.op) = a by omega] at this
            rw [this, readByte_ip]
            exact (h.message ha hd).2 _ (by omega)
        · have := literalRun_spaceOk hu (sp := sp) (spaceOk_congr (by cases sp <;> rfl) (by cases sp <;> rfl) (h.spaces sp))
          exact spaceOk_congr (by cases sp <;> rfl) (by cases sp <;> rfl) this
  · obtain ⟨ha, hd, -⟩ := h.decoding (.inl hs)
    obtain ⟨v, hv⟩ := (h.message ha hd).2 _ hc
    rw [hv] at hr; cases hr
  · obtain ⟨ha, hd, hcomp, hip, hop, hread⟩ := h.decoding (.inr (.inl ⟨b, hs⟩))
    obtain ⟨rest, hrest⟩ := h.msgTail ha hd hip
    have h1 := hrest.1
    rw [refPart_eq hrest] at hm
    rcases rest with _ | ⟨lo, _ | ⟨hi, after⟩⟩
    · exact ⟨_, hm, h.takeError rfl _⟩
    · exact ⟨_, hm, h.takeError rfl _⟩
    · simp only [List.length_cons] at h1
      simp only at hm
      cases ht : takeLength (tokenMM b) after with
      | none => simp only [ht] at hm; exact ⟨_, hm, h.takeError rfl _⟩
      | some p =>
        obtain ⟨n, ext⟩ := p
        obtain ⟨hle, hext⟩ := takeLength_rest ht
        simp only [ht] at hm
        by_cases hof : assembleOffset lo hi = 0 ∨ s.op < assembleOffset lo hi
        · rw [(backRefCopy_eq (s := { s with ip := s.c - ext.length })).1 hof] at hm
          exact ⟨_, hm, h.takeError rfl _⟩
        by_cases hsz : s.l < s.op + (n + matchBias)
        · rw [(backRefCopy_eq (s := { s with ip := s.c - ext.length })).2.1 (by omega) (by simp only; omega) hsz] at hm
          exact ⟨_, hm, h.takeError rfl _⟩
        obtain ⟨u, hu, huf, hud, huo⟩ := (backRefCopy_eq (offset := assembleOffset lo hi) (matchlen := n + matchBias)
          (s := { s with ip := s.c - ext.length })).2.2 (by omega) (by simp only; omega) (by simp only; omega) (fun a _ hlt => by
            have := hread a hlt
            simpa [Readable] using this)
        simp only at huf hud huo
        simp only [hu, Res.bind_ok, Res.finish_ok] at hm
        refine ⟨_, hm, h.decode_next (by simp only; rw [huf]) ha hd hcomp (h.format (.inr (.inl ⟨b, hs⟩))) (.inl rfl) ?_ ?_ (fun a hlt => ?_) (fun sp => ?_)⟩
        · simp only; rw [huf]; simp only; omega
        · simp only; rw [huf]; simp only; omega
        · have hop' : u.op = s.op + (n + matchBias) := by rw [huf]
          simp only [hop'] at hlt
          unfold Readable
          rw [readByte_seq]
          induction a using Nat.strongRecOn with
          | ind a ih =>
            by_cases hx : a < s.op
            · rw [huo a (.inl hx), readByte_ip]; exact hread a hx
            · have := hud (a - s.op) (by omega)
              rw [show s.op + (a - s.op) = a by omega] at this
              rw [this]
              exact ih _ (by omega) (by omega)
        · have := backRefCopy_spaceOk hu (sp := sp) (spaceOk_congr (by cases sp <;> rfl) (by cases sp <;> rfl) (h.spaces sp))
          exact spaceOk_congr (by cases sp <;> rfl) (by cases sp <;> rfl) this
  · obtain ⟨ha, hd, hcomp, hip, hop, hread⟩ := h.decoding (hs.elim .inl (fun h => .inr (.inl h)))
    refine ⟨_, hm, ?_⟩
    exact
      { sizeN := h.sizeN, sizeM := h.sizeM, sizeL := h.sizeL
        spaces := fun sp => spaceOk_congr (by cases sp <;> rfl) (by cases sp <;> rfl) (h.spaces sp)
        accepted := h.accepted
        message := fun h1 h2 => ⟨(h.message h1 h2).1, fun a hlt => by simpa [Readable] using (h.message h1 h2).2 a hlt⟩
        decoded := fun _ h2 => by rw [hd] at h2; cases h2
        decoding := fun _ => ⟨ha, hd, hcomp, hip, hop, fun a hlt => by simpa [Readable] using hread a hlt⟩
        format := fun _ => h.format (hs.elim .inl (fun h => .inr (.inl h)))
        ended := fun _ => by simp only; omega
        delta := fun hx => by cases hx }
  · obtain ⟨ha, hd, hcomp, hip, hop, hread⟩ := h.decoding (.inr (.inr hs))
    unfold finishDecode at hm
    by_cases hl : s.op = s.l
    · rw [if_pos hl] at hm
      refine ⟨_, hm, ?_⟩
      exact
        { sizeN := h.sizeN, sizeM := h.sizeM, sizeL := h.sizeL
          spaces := fun sp => spaceOk_congr (by cases sp <;> rfl) (by cases sp <;> rfl) (h.spaces sp)
          accepted := h.accepted
          message := fun _ h2 => by cases h2
          decoded := fun _ _ a hlt => by
            have := hread a (by rw [hl]; exact hlt)
            exact this
          decoding := fun hx => by rcases hx with hx | ⟨t, hx⟩ | hx <;> cases hx
          format := fun hx => by rcases hx with hx | ⟨t, hx⟩ | hx <;> cases hx
          ended := fun hx => by cases hx
          delta := fun hx => by cases hx }
    · rw [if_neg hl] at hm
      exact ⟨_, hm, h.takeError rfl _⟩
  · obtain ⟨ha, hd, hdel, hin⟩ := h.delta hs
    obtain ⟨r, hr⟩ := readByte_ref hi
    have hl : s.l = s.n + bitmapBytes s.n := by rw [h.sizeL, decodedBytes, hdel, if_pos rfl, ← h.sizeN]
    obtain ⟨d, hd'⟩ := h.decoded ha hd s.i (by omega)
    obtain ⟨t, ht, htf, -⟩ := runMicro_sign (sign := sg) (s := { s with i := s.i + 1 }) (i := s.i) (by simpa using hr)
      (by simpa using hd')
    rw [ht] at hm
    have hsp := fun sp => runMicro_sign_spaceOk ht (sp := sp)
      (spaceOk_congr (by cases sp <;> rfl) (by cases sp <;> rfl) (h.spaces sp))
    have hseq : t.seq = .delta := by rw [htf]; exact hs
    have hfsm : t.fsm = .reconstructing := by rw [htf]; exact hd
    exact ⟨t, hm,
      { sizeN := by rw [htf]; exact h.sizeN
        sizeM := by rw [htf]; exact h.sizeM
        sizeL := by rw [htf]; exact h.sizeL
        spaces := hsp
        accepted := fun _ => by have := h.accepted ha; rw [htf]; exact this
        message := fun _ h2 => by rw [hfsm] at h2; cases h2
        decoded := fun _ _ a hlt => by
          unfold Readable
          rw [readByte_congr (s := s) (by rw [htf]; rfl) (by rw [htf]; rfl)]
          exact h.decoded ha hd a (by rw [htf] at hlt; exact hlt)
        decoding := fun hx => by rw [hseq] at hx; rcases hx with hx | ⟨t, hx⟩ | hx <;> cases hx
        format := fun hx => by rw [hseq] at hx; rcases hx with hx | ⟨t, hx⟩ | hx <;> cases hx
        ended := fun hx => by rw [hseq] at hx; cases hx
        delta := fun _ => ⟨by rw [htf]; exact ha, hfsm, by rw [htf]; exact hdel, by rw [htf]; exact hi⟩ }⟩
  · obtain ⟨ha, hd, hdel, hin⟩ := h.delta hs
    have hl : s.l = s.n + bitmapBytes s.n := by rw [h.sizeL, decodedBytes, hdel, if_pos rfl, ← h.sizeN]
    obtain ⟨v, hv⟩ := h.decoded ha hd (s.n + s.i / 8) (by rw [hl]; unfold bitmapBytes; omega)
    rw [readSign_ok hv] at hf; cases hf
  · obtain ⟨ha, hd, hdel, hin⟩ := h.delta hs
    exact ⟨_, hm,
      { sizeN := h.sizeN, sizeM := h.sizeM, sizeL := h.sizeL
        spaces := fun sp => spaceOk_congr (by cases sp <;> rfl) (by cases sp <;> rfl) (h.spaces sp)
        accepted := h.accepted
        message := fun _ h2 => by cases h2
        decoded := fun _ h2 => by cases h2
        decoding := fun hx => by rcases hx with hx | ⟨t, hx⟩ | hx <;> cases hx
        format := fun hx => by rcases hx with hx | ⟨t, hx⟩ | hx <;> cases hx
        ended := fun hx => by cases hx
        delta := fun hx => by cases hx }⟩

theorem runStage_inv {n : Nat} {s : State} (h : Inv s) : ∃ t, runStage n s = .next t ∧ Inv t := by
  induction n generalizing s with
  | zero => exact ⟨s, rfl, h⟩
  | succ n ih =>
    by_cases hs : s.seq = .idle
    · exact ⟨s, runStage_idle _ _ hs, h⟩
    · obtain ⟨u, hu, hi⟩ := microStep_inv h
      obtain ⟨t, ht, hj⟩ := ih hi
      exact ⟨t, by rw [runStage_next hs hu, ht], hj⟩

/-- The replay of an abstract token stream answers a state that meets the invariant, whatever the parser (R84, R124). -/
theorem decompressAbstract_inv {parse : List Byte → TokenStream} {s : State} (h : Inv s)
    (ha : s.status = .active) (hd : s.fsm = .decompressing) : ∃ t, decompressAbstract parse s = .next t ∧ Inv t := by
  obtain ⟨message, hm⟩ := readRun_succeeds (src := .msg) (count := s.c) (a := 0) (s := s) (fun j hj => by
    rw [Nat.zero_add]; exact (h.message ha hd).2 j hj)
  have hr := replayTokens_eq (parse message).tokens [] { s with ip := 0, op := 0 } ⟨rfl, fun j v hj => by simp at hj⟩ (by simp)
  simp only [decompressAbstract, hm]
  have hsp := replayTokens_spaceOk (tokens := (parse message).tokens) (s := { s with ip := 0, op := 0 }) fun sp =>
    spaceOk_congr (s := s) (by cases sp <;> rfl) (by cases sp <;> rfl) (h.spaces sp)
  have hf := replayTokens_frame (tokens := (parse message).tokens) (s := { s with ip := 0, op := 0 })
  have error : ∀ (u : State) (k : ErrorKind), u = { s with ip := 0, op := u.op, dec := u.dec } → (∀ sp, SpaceOk sp u) →
      Inv (u.takeError k) := fun u k hu hsp =>
    .of_inactive (by rw [hu]; exact h.sizeN) (by rw [hu]; exact h.sizeM) (by rw [hu]; exact h.sizeL)
      (fun sp => spaceOk_congr (by cases sp <;> rfl) (by cases sp <;> rfl) (hsp sp)) (by simp) rfl
  split at hr
  · obtain ⟨u, hu, -, hout, -, -⟩ := hr
    simp only [hu] at hsp hf ⊢
    cases (parse message).truncated with
    | true => exact ⟨_, rfl, error u _ hf hsp⟩
    | false =>
      simp only [Bool.false_eq_true, if_false, finishDecode]
      by_cases hl : u.op = u.l
      · rw [if_pos hl]
        refine ⟨_, rfl, .of_idle (by rw [hf]; exact h.sizeN) (by rw [hf]; exact h.sizeM) (by rw [hf]; exact h.sizeL)
          (fun sp => spaceOk_congr (by cases sp <;> rfl) (by cases sp <;> rfl) (hsp sp))
          (fun _ => by have := h.accepted ha; rw [hf]; exact this) rfl (fun _ hx => by cases hx) fun _ _ a hlt => ?_⟩
        have hlt : a < u.l := hlt
        simpa [Readable] using hout.readable (a := a) (by omega)
      · rw [if_neg hl]; exact ⟨_, rfl, error u _ hf hsp⟩
  · obtain ⟨u, hu, -⟩ := hr
    simp only [hu] at hsp hf ⊢
    exact ⟨_, rfl, error u _ hf hsp⟩

/-- `DECODE.C` answers a state that meets the invariant, under every token format. -/
theorem execDecodeC_inv {s : State} (h : Inv s) (ha : s.status = .active) (hd : s.fsm = .decompressing)
    (hc : s.cfg.compression = true) : ∃ t, execDecodeC s = .next t ∧ Inv t := by
  cases hf : s.params.tokenFormat with
  | other k => rw [execDecodeC_other hf]; exact decompressAbstract_inv h ha hd
  | seq16 =>
    rw [execDecodeC_seq16 hf]
    refine runStage_inv ?_
    exact
      { sizeN := h.sizeN, sizeM := h.sizeM, sizeL := h.sizeL
        spaces := fun sp => spaceOk_congr (s := s) (by cases sp <;> rfl) (by cases sp <;> rfl) (h.spaces sp)
        accepted := h.accepted
        message := h.message
        decoded := h.decoded
        decoding := fun _ => ⟨ha, hd, hc, Nat.zero_le _, Nat.zero_le _, fun a hlt => absurd hlt (Nat.not_lt_zero _)⟩
        format := fun _ => hf
        ended := fun hx => by cases hx
        delta := fun hx => by cases hx }

end Sys2Proof.Machine
end

