-- ==== Sys2Proof/Laws/Cycle.lean ====
section
/-! SUPPORT. One step in each state of the cycle of R161 that has one, and runs of steps. -/

open Sys2Proof

namespace Sys2Proof.Machine

/-- The step of `AwaitingFrame` that a message makes (R170). -/
theorem recv_step (s : State) (msg : List Byte) (rest : List Slot) (hs : s.seq = .idle) (hw : s.awaitingFrame = true)
   (hfit : fitsMessage msg.length s.params = true) (hi : s.inputs = .event (.message msg) :: rest) :
   step s = .next { s with inputs := rest, msg := Memory.ofBytes 0 msg, c := msg.length, fsm := .decompressing } := by
  rw [step_event hs hi]
  simp [selectEvent, hw, decode, exec, execRecv, hfit]

/-- The step of `Reconstructing` (R145, R146, R171): the frame becomes the function `reconstruct` of the frame and the buffer. -/
theorem recon_step (s : State) (old out : List Byte) (hinv : Inv s) (ho : contents .ref s = .ok old) (hd : contents .dec s = .ok out)
    (hs : s.seq = .idle) (ha : s.status = .active)
    (hf : s.fsm = .reconstructing) (hq : s.inputs = [] ∨ ∃ rest, s.inputs = .quiet :: rest) :
    ∃ t, step s = .next t ∧ t = { s with i := s.n, fsm := .presenting, presented := false, ref := t.ref, inputs := s.inputs.tail } ∧
      contents .ref t = .ok (reconstruct s.cfg.delta s.n old out) := by
  obtain ⟨hol, hor⟩ := contents_ok.1 ho
  obtain ⟨hdl, hdr⟩ := contents_ok.1 hd
  have hol : old.length = s.n := hol
  have hdl : out.length = s.l := hdl
  have hread : ∀ a (h : a < out.length), readByte .dec a s = .ok out[a] := fun a h => hdr a _ (List.getElem?_eq_getElem h)
  rw [step_quiet hs hq]
  rw [show selectInternal s = some (.reconMode s.cfg.compression s.cfg.delta) by simp [selectInternal, ha, hf]]
  simp only [decode]
  cases hdel : s.cfg.delta with
  | true =>
    have hl : s.l = s.n + bitmapBytes s.n := by rw [hinv.sizeL, decodedBytes, hdel, if_pos rfl, ← hinv.sizeN]
    obtain ⟨t, h1, h2, h3, h4⟩ := runStage_delta (fuel := s.n + 1) (s := { s with inputs := s.inputs.tail, i := 0, seq := .delta }) rfl (by simp) (by simp)
      (fun a hlt => by
        have hlt : a < s.n + bitmapBytes s.n := hlt
        exact ⟨_, hread a (by omega)⟩)
    refine ⟨t, h1, by rw [h2]; simp only [hs], contents_ok.2 ⟨by simp [reconstruct]; rw [h2], fun j v hj => ?_⟩⟩
    have hjn : j < s.n := by have := (List.getElem?_eq_some_iff.1 hj).1; simpa [reconstruct] using this
    have hb : s.n + j / 8 < out.length := by rw [hdl, hl]; unfold bitmapBytes; omega
    have hjo : j < out.length := by omega
    simp only [reconstruct, List.getElem?_map, List.getElem?_range hjn, Option.map_some, Option.some.injEq] at hj
    rw [h4 j old[j] out[j] out[s.n + j / 8] (Nat.zero_le _) hjn (hor j _ (List.getElem?_eq_getElem (by omega))) (hread j hjo) (hread _ hb)]
    rw [← hj]
    simp [reconstructByte, deltaByte, signOf_eq, hjo, hb, hol, hjn]
  | false =>
    have hl : s.l = s.n := by rw [hinv.sizeL, decodedBytes, hdel, if_neg (by simp), ← hinv.sizeN]
    obtain ⟨u, hu, h2, h3, h4⟩ := replaceRun_eq (count := s.n) (s := { s with inputs := s.inputs.tail, i := 0 }) (by simp)
      (fun a hlt => ⟨_, hread a (by have hlt : a < s.n := hlt; omega)⟩)
    refine ⟨u.enterPresenting, by simp [exec, execReconR, hu], ?_, contents_ok.2 ⟨?_, fun j v hj => ?_⟩⟩
    · rw [h2]; simp [State.enterPresenting, hs]
    · simp [reconstruct, State.enterPresenting]; rw [h2]
    · have hjn : j < s.n := by have := (List.getElem?_eq_some_iff.1 hj).1; simpa [reconstruct] using this
      have hjo : j < out.length := by omega
      simp only [reconstruct, List.getElem?_map, List.getElem?_range hjn, Option.map_some, Option.some.injEq] at hj
      have := h4 j (Nat.zero_le _) hjn
      show readByte .ref j u = _
      rw [this, ← hj]
      simp [reconstructByte, hjo]
      exact hread j hjo

/-- The step of `Presenting` before the hand-over (R172). -/
theorem present_step (s : State) (old : List Byte) (ho : contents .ref s = .ok old) (hs : s.seq = .idle) (ha : s.status = .active)
    (hf : s.fsm = .presenting) (hp : s.presented = false) (hq : s.inputs = [] ∨ ∃ rest, s.inputs = .quiet :: rest) :
    step s = .next { s with presented := true, inputs := s.inputs.tail, trace := s.trace ++ [.present s.cfg.w s.cfg.h old] } := by
  rw [step_quiet hs hq]
  rw [show selectInternal s = some .presenting by simp [selectInternal, ha, hf, hp]]
  obtain ⟨b, hb, he⟩ := execPresent_eq { s with inputs := s.inputs.tail }
  have : contents .ref { s with inputs := s.inputs.tail } = .ok old := by rw [← ho]; exact contents_congr rfl rfl
  rw [this] at hb; cases hb
  exact he

/-- The step of `Presenting` after the hand-over (R173). -/
theorem ack_step (s : State) (hs : s.seq = .idle) (ha : s.status = .active)
    (hf : s.fsm = .presenting) (hp : s.presented = true) (hq : s.inputs = [] ∨ ∃ rest, s.inputs = .quiet :: rest) :
    step s = .next { s with fsm := .awaitingFrame, inputs := s.inputs.tail, trace := s.trace ++ [.ack s.params.ackSentinel] } := by
  rw [step_quiet hs hq]
  rw [show selectInternal s = some .presented by simp [selectInternal, ha, hf, hp]]
  rfl

/-- Without an active session and without an event, a step waits. -/
theorem wait_step (s : State) (hs : s.seq = .idle) (ha : s.status ≠ .active) (hq : s.inputs = [] ∨ ∃ rest, s.inputs = .quiet :: rest) :
    step s = .next { s with inputs := s.inputs.tail } := by
  rw [step_quiet hs hq]; simp [selectInternal, ha]

/-- Runs of steps compose. -/
theorem runSteps_add (a b : Nat) (s t : State) (h : runSteps a s = .next t) : runSteps (a + b) s = runSteps b t := by
  induction a generalizing s with
  | zero => cases h; rw [Nat.zero_add]
  | succ a ih =>
    rw [Nat.add_right_comm, runSteps]
    rw [runSteps] at h
    cases hs : step s with
    | next u => rw [hs] at h; exact ih u h
    | fault f => rw [hs] at h; cases h
    | refused f => rw [hs] at h; cases h

end Sys2Proof.Machine
end

