-- ==== Sys2Proof/Laws/PerInstr.lean ====
section
/-! SUPPORT. Statements made for each instruction: an instruction is well-formed exactly if some encoding selects it (R96: nothing
well-formed is unreachable, and nothing the decoder gives is ill-formed). -/

namespace Sys2Proof.Laws.Selectable

/-- Well-formed, exactly if a selector decodes to it. -/
def Statement (i : Instr) : Prop := WellFormed i = true ↔ ∃ sel, decode sel = i

/-- What the decoder gives is well-formed. -/
theorem of_decode {i : Instr} (h : WellFormed i = true → decode (encode i) = i) : Statement i :=
  ⟨fun hw => ⟨encode i, h hw⟩, fun ⟨sel, hs⟩ => hs ▸ decode_wellFormed sel⟩

theorem lit (ll mm : Nibble) : Statement (.lit ll mm) := of_decode fun h => by
  simp only [WellFormed, decide_eq_true_eq] at h
  rw [encode, decode, decodeLiteralPart_lit (by rwa [tokenLL_tokenByte])]
  simp [MicroOp.toInstr]
theorem litx (mm : Nibble) : Statement (.litx mm) := of_decode fun _ => by
  simp [encode, decode, decodeLiteralPart, MicroOp.toInstr]
theorem ref (mm : Nibble) : Statement (.ref mm) := of_decode fun h => by
  simp only [WellFormed, decide_eq_true_eq] at h
  rw [encode, decode, decodeBackRefPart_ref (by rwa [tokenMM_tokenByte])]
  simp [MicroOp.toInstr]
theorem refx : Statement .refx := of_decode fun _ => by decide
theorem endStream : Statement .endStream := of_decode fun _ => rfl
theorem decodeC : Statement .decodeC := of_decode fun _ => rfl
theorem decodeP : Statement .decodeP := of_decode fun _ => rfl
theorem reconD : Statement .reconD := of_decode fun _ => rfl
theorem reconR : Statement .reconR := of_decode fun _ => rfl
theorem addb (i : Nat) : Statement (.addb i) := of_decode fun _ => rfl
theorem subb (i : Nat) : Statement (.subb i) := of_decode fun _ => rfl
theorem start (cfg : SessionConfig) : Statement (.start cfg) := of_decode fun _ => rfl
theorem recv (bytes : List Byte) : Statement (.recv bytes) := of_decode fun _ => rfl
theorem present : Statement .present := of_decode fun _ => rfl
theorem ack : Statement .ack := of_decode fun _ => rfl
theorem abort (kind : ErrorKind) : Statement (.abort kind) := of_decode fun _ => rfl

end Sys2Proof.Laws.Selectable
end

