-- ==== Sys2Proof/Tests/Slice0.lean ====
section
/-! SUPPORT. Tests. Expected results come from spec/95_test_vectors.md (vector ids in the comments) and from the worked examples
of the rules; decode words are written out from the encodings of 30_encoding.md. The second half shows, for every statement
with hypotheses, states and operands that meet them, clause by clause and at the ends of their ranges. -/

open Sys2Proof Sys2Proof.Machine

namespace Sys2Proof.Tests

/-! ### Small states -/

/-- `DECODE.C` or one of its tokens at the start of a message, with a capacity. -/
def decoding (bytes : List Byte) (l : Nat) : State :=
  { State.reset with
    status := .active, fsm := .decompressing, seq := .token, msg := Memory.ofBytes 0 bytes, c := bytes.length, l := l }

/-- Between stages, a message latched. -/
def received (bytes : List Byte) (l : Nat) : State := { decoding bytes l with seq := .idle }

/-- The same state of a machine with another token format (R10). -/
def underFormat (k : Nat) (s : State) : State := { s with params := { s.params with tokenFormat := .other k } }

/-- After some bytes were written to `DEC`, at a place of the message. -/
def written (bytes : List Byte) (ip : Nat) (out : List Byte) (l : Nat) : State :=
  { decoding bytes l with ip := ip, op := out.length, dec := Memory.ofBytes 0 out }

/-- A frame and a decoded buffer, ready to be reconstructed. -/
def framed (frame decoded : List Byte) : State :=
  { State.reset with
    status := .active, fsm := .reconstructing, n := frame.length, m := bitmapBytes frame.length, l := decoded.length,
    ref := Memory.ofBytes 0 frame, dec := Memory.ofBytes 0 decoded }

/-- The outcome is a next state with a property. -/
def holds (o : Outcome) (p : State → Bool) : Bool :=
  match o with
  | .next s => p s
  | .fault _ => false
  | .refused _ => false

/-- The bytes of a space. -/
def bytesOf (sp : Space) (s : State) : Option (List Byte) := (contents sp s).toOption

/-- The bytes written so far. -/
def writtenBytes (s : State) : Option (List Byte) := (readRun .dec s.op 0 s).toOption

/-! ### Well-formedness: each check refuses an ill-formed term -/

theorem test_lit_of_fifteen_is_ill_formed : WellFormed (.lit 15 3) = false := by decide
theorem test_ref_of_fifteen_is_ill_formed : WellFormed (.ref 15) = false := by decide
theorem test_lit_of_fourteen_is_well_formed : WellFormed (.lit 14 15) = true := by decide
theorem test_sequence_of_three_is_ill_formed : (Sequence.mk [] 1 3).wellFormed = false := by decide
theorem test_sequence_of_wide_offset_is_ill_formed : (Sequence.mk [] 65536 4).wellFormed = false := by decide

/-! ### Decoding: words from the encodings of opcode_table.json and 30_encoding.md -/

/-- LLLLmmmm = 0010 0111. -/
theorem test_decode_lit : decode (.literalPart 0b00100111) = .lit 2 7 := by decide
/-- 1111mmmm = 1111 0001. -/
theorem test_decode_litx : decode (.literalPart 0b11110001) = .litx 1 := by decide
/-- llllMMMM = 1111 1110. -/
theorem test_decode_ref : decode (.backRefPart 0b11111110) = .ref 14 := by decide
/-- llll1111 = 0001 1111. -/
theorem test_decode_refx : decode (.backRefPart 0b00011111) = .refx := by decide
/-- `1d` and `0d` of R81. -/
theorem test_decode_modes : decode (.decodeMode true false) = .decodeC ∧ decode (.decodeMode false false) = .decodeP ∧
    decode (.reconMode true true) = .reconD ∧ decode (.reconMode false false) = .reconR := by decide
/-- Bits 1, 2 and 4 of the bitmap byte 0x16 are set (V41). -/
theorem test_decode_signs : (List.range 6).map (fun i => decode (.signBit (signOf 0x16 i) i)) =
    [.addb 0, .subb 1, .subb 2, .addb 3, .subb 4, .addb 5] := by decide
theorem test_decode_events : decode .presenting = .present ∧ decode .presented = .ack ∧
    decode (.error .timeout) = .abort .timeout ∧ decode (.message [1]) = .recv [1] := by decide
/-- R90: offset 0x012C of V34, low byte first. -/
theorem test_offset_low_byte_first : assembleOffset 0x2C 0x01 = 300 := by decide
/-- R87: 0xFF 0xFF 0x03 after 15 means 528. -/
theorem test_extension_sum : takeLength 15 [0xFF, 0xFF, 0x03, 0xAA] = some (528, [0xAA]) := by decide
/-- The tokens of V10. -/
theorem test_parse_v10 : parseSeq16 [0x11, 0x01, 0x01, 0x00, 0x10, 0x03] =
    ⟨[.literal [0x01], .backRef 1 5, .literal [0x03]], false⟩ := by decide
/-- The bytes of V27. -/
theorem test_assemble_v27 : encodeStream [⟨[0x41, 0x42, 0x43], 3, 6⟩] none = [0x32, 0x41, 0x42, 0x43, 0x03, 0x00] := by decide
/-- P3: FILL 80, 12 is 17 80 01 00. -/
theorem test_assemble_fill : encodeStream [⟨[0x80], 1, 11⟩] none = [0x17, 0x80, 0x01, 0x00] := by decide

/-! ### Table words -/

theorem test_table_litx : decodeTableWord 8 0xF0 = some (.litx 0) := by decide
theorem test_table_refx : decodeTableWord 8 0x0F = some .refx := by decide
theorem test_table_lit : decodeTableWord 8 0x35 = some (.lit 3 5) := by decide
theorem test_table_ref : decodeTableWord 24 0x000105 = some (.ref 5) := by decide
theorem test_table_end : decodeTableWord 0 0 = some .endStream := by decide
theorem test_fetch_litx : step (State.reset.withFetchWord 8 0xF0) = exec (.litx 0) (State.reset.withFetchWord 8 0xF0) := by rfl
theorem test_fetch_refx : step (State.reset.withFetchWord 8 0x0F) = exec .refx (State.reset.withFetchWord 8 0x0F) := by rfl

/-! ### Tokens -/

/-- The example of R113. -/
theorem test_lit : holds (step (decoding [0x20, 0xAA, 0xBB, 0x00] 2))
    (fun s => writtenBytes s = some [0xAA, 0xBB] ∧ s.ip = 3 ∧ s.op = 2 ∧ s.seq = .backRef 0x20) = true := by decide
/-- V31: SizeMismatch, nothing written. -/
theorem test_lit_too_long : holds (step (decoding [0x20, 0xAA, 0xBB] 1))
    (fun s => s.status = .terminated .sizeMismatch ∧ s.dec = [] ∧ s.op = 0) = true := by decide
/-- V20: 15 literal bytes. -/
theorem test_litx : holds (step (decoding [0xF0, 0x00, 0, 1, 2, 3, 4, 5, 6, 7, 8, 9, 10, 11, 12, 13, 14] 15))
    (fun s => writtenBytes s = some [0, 1, 2, 3, 4, 5, 6, 7, 8, 9, 10, 11, 12, 13, 14] ∧ s.ip = 17) = true := by decide
/-- V18: TruncatedInput inside the extension. -/
theorem test_litx_cut : holds (step (decoding [0xF0] 20)) (fun s => s.status = .terminated .truncatedInput) = true := by decide
/-- The example of R115. -/
theorem test_ref : holds (exec (.ref 1) (written [0x01, 0x00] 0 [0x01] 7))
    (fun s => writtenBytes s = some [1, 1, 1, 1, 1, 1] ∧ s.op = 6 ∧ s.ip = 2) = true := by decide
/-- V32: the offset is checked before the capacity. -/
theorem test_ref_offset_first : holds (exec (.ref 0) (written [0x10, 0xAA, 0x00, 0x00] 2 [0xAA] 2))
    (fun s => s.status = .terminated .malformedStream) = true := by decide
/-- V24: 20 copies of 07. -/
theorem test_refx : holds (exec .refx (written [0x1F, 0x07, 0x01, 0x00, 0x01] 2 [0x07] 21))
    (fun s => writtenBytes s = some (List.replicate 21 0x07) ∧ s.op = 21) = true := by decide
/-- V19b: the whole token is parsed before the offset is validated. -/
theorem test_refx_parsed_first : holds (exec .refx (written [0x1F, 0xAA, 0x00, 0x00] 2 [0xAA] 30))
    (fun s => s.status = .terminated .truncatedInput) = true := by decide
/-- V29a: the message 05 ends after an empty literal, and MM is ignored. -/
theorem test_end_after_literals : step { written [0x05] 1 [] 0 with seq := .backRef 0x05 } =
    .next { written [0x05] 1 [] 0 with seq := .check } := by rfl
/-- V28a: an empty message yields no byte, and seven were expected. -/
theorem test_end_short : holds (step { decoding [] 7 with seq := .check }) (fun s => s.status = .terminated .sizeMismatch)
    = true := by decide

/-! ### Stages -/

/-- V10. -/
theorem test_decodeC : holds (step { received [0x11, 0x01, 0x01, 0x00, 0x10, 0x03] 7 with cfg := ⟨2, 1, true, true⟩ })
    (fun s => s.fsm = .reconstructing ∧ bytesOf .dec s = some [1, 1, 1, 1, 1, 1, 3]) = true := by decide
/-- V32a: the first error in stream order. -/
theorem test_decodeC_first_error : holds (exec .decodeC (received [0x10, 0xAA, 0x05, 0x00, 0xF0] 50))
    (fun s => s.status = .terminated .malformedStream ∧ s.trace = [.fail .malformedStream]) = true := by decide
/-- The tokens of V33, as another format's parser may yield them; and DECODE.C runs the parser of the machine's format (R84). -/
theorem test_decodeC_other_format :
    holds (decompressAbstract (fun _ => ⟨[.literal [0xAA, 0xBB], .backRef 2 4], false⟩) (received [1] 6))
      (fun s => s.fsm = .reconstructing ∧ bytesOf .dec s = some [0xAA, 0xBB, 0xAA, 0xBB, 0xAA, 0xBB]) = true ∧
    exec .decodeC (underFormat 7 (received [1] 6)) =
      decompressAbstract (parseOther 7) (underFormat 7 (received [1] 6)) := by
  refine ⟨by decide, rfl⟩
/-- V30d: no byte is read as a token. -/
theorem test_decodeP : holds (step (received [0x11, 0x01, 0x01, 0x00, 0x10, 0x03, 0x00] 7))
    (fun s => s.fsm = .reconstructing ∧ bytesOf .dec s = some [0x11, 0x01, 0x01, 0x00, 0x10, 0x03, 0x00]) = true := by decide
/-- V30b: one byte too long. -/
theorem test_decodeP_long : holds (exec .decodeP (received [1, 1, 1, 1, 1, 1, 3, 0] 7))
    (fun s => s.status = .terminated .sizeMismatch ∧ s.dec = []) = true := by decide
/-- V41. -/
theorem test_reconD : holds (exec .reconD (framed [250, 5, 0, 255, 128, 0] [0x0A, 0x0A, 0x01, 0x01, 0x80, 0x00, 0x16]))
    (fun s => bytesOf .ref s = some [4, 251, 255, 0, 0, 0] ∧ s.fsm = .presenting ∧ s.presented = false) = true := by decide
/-- V42a: the ninth byte's sign is bit 0 of the second bitmap byte, the other bits are padding. -/
theorem test_reconD_padding : holds
    (exec .reconD (framed [100, 100, 100, 100, 100, 100, 100, 100, 100] [1, 2, 3, 4, 5, 6, 7, 8, 9, 0x00, 0xFF]))
    (fun s => bytesOf .ref s = some [101, 102, 103, 104, 105, 106, 107, 108, 91]) = true := by decide
/-- V45a: zero bytes replace the frame. -/
theorem test_reconR : holds (exec .reconR (framed [255, 255, 255] [0, 0, 0]))
    (fun s => bytesOf .ref s = some [0, 0, 0] ∧ s.ref = [] ∧ s.i = 3) = true := by decide

/-! ### Bytes -/

/-- 250 + 10 and 255 + 1 of table 2.3. -/
theorem test_addb : holds (exec (.addb 0) (framed [250] [10])) (fun s => bytesOf .ref s = some [4]) = true ∧
    holds (exec (.addb 0) (framed [255] [1])) (fun s => bytesOf .ref s = some [0]) = true := by decide
/-- 5 - 10 and 0 - 255 of table 2.3. -/
theorem test_subb : holds (exec (.subb 0) (framed [5] [10])) (fun s => bytesOf .ref s = some [251]) = true ∧
    holds (exec (.subb 0) (framed [0] [255])) (fun s => bytesOf .ref s = some [1]) = true := by decide

/-! ### The controller -/

/-- The session of program P1, waiting for its first message. -/
def session : State :=
  { State.reset with
    status := .active, cfg := ⟨2, 1, true, true⟩, n := 6, m := 1, l := 7, trace := [.ack State.reset.params.ackSentinel] }

/-- V50. -/
theorem test_start : holds (exec (.start ⟨2, 1, true, true⟩) State.reset)
    (fun s => s.awaitingFrame ∧ s.n = 6 ∧ s.m = 1 ∧ s.l = 7 ∧ bytesOf .ref s = some [0, 0, 0, 0, 0, 0]) = true := by decide
/-- V51: a zero dimension. -/
theorem test_start_refused : holds (exec (.start ⟨0, 5, true, true⟩) State.reset)
    (fun s => s.status = .terminated .configRefused ∧ s.trace = [.fail .configRefused]) = true := by decide
/-- Table 2.6, last row: the sizes do not wrap. -/
theorem test_sizes : frameBytes ⟨4294967295, 4294967295, true, true⟩ = 55340232195358851075 ∧
    decodedBytes ⟨4294967295, 4294967295, true, true⟩ = 62257761219778707460 := by decide
/-- The example of R170. -/
theorem test_recv : holds (exec (.recv [0x11, 0x01, 0x01, 0x00, 0x10, 0x03]) session)
    (fun s => s.c = 6 ∧ s.fsm = .decompressing ∧ !s.awaitingFrame ∧ bytesOf .msg s = some [0x11, 0x01, 0x01, 0x00, 0x10, 0x03])
    = true := by decide
/-- The example of R172. -/
theorem test_present : holds (exec .present { session with fsm := .presenting, ref := Memory.ofBytes 0 [255, 255, 1, 1, 1, 1] })
    (fun s => s.presented ∧ s.trace.getLast? = some (.present 2 1 [255, 255, 1, 1, 1, 1])) = true := by decide
theorem test_ack : holds (exec .ack { session with fsm := .presenting, presented := true })
    (fun s => s.awaitingFrame ∧ s.trace.length = 2) = true := by decide
/-- V56: the frame was presented, no acknowledgment follows. -/
theorem test_abort : holds (step { session with fsm := .presenting, presented := true, inputs := [.event .channelClosed] })
    (fun s => s.status = .terminated .channelClosed ∧ s.failPort = 5 ∧ s.trace.getLast? = some (.fail .channelClosed))
    = true := by decide
/-- V55: a message too early. -/
theorem test_early_message : holds (step { session with fsm := .decompressing, inputs := [.event (.message [1])] })
    (fun s => s.status = .terminated .protocolViolation) = true := by decide
/-- V54: a timeout outside the wait changes nothing. -/
theorem test_timeout_ignored : step { session with fsm := .reconstructing, inputs := [.event .timeoutExpired] } =
    .next { session with fsm := .reconstructing } := by rfl

/-! ### Witnesses: states and operands that meet the hypotheses of the statements -/

/-- A read that answers is a readable byte. -/
theorem readable_of {sp : Space} {a : Nat} {s : State} (h : (readByte sp a s).isOk = true) : Readable sp a s := by
  unfold Readable
  cases hr : readByte sp a s with
  | ok v => exact ⟨v, rfl⟩
  | error f => rw [hr] at h; cases h

/-- Well-formed instructions, at the largest literal field and for the rows without one. -/
theorem witness_DecodeInvertsEncode : WellFormed (.lit 14 15) = true ∧ WellFormed (.ref 14) = true ∧ WellFormed .refx = true ∧
    WellFormed (.abort .timeout) = true := by decide

/-- Well-formed sequences, with the smallest length and both ends of the offset. -/
theorem witness_SeqStreamsParseBack :
    ∀ q ∈ [Sequence.mk [] 0 4, Sequence.mk [0xAA] 65535 19], q.wellFormed = true := by decide

theorem witness_SequenceLengthCounted : (Sequence.mk [0xAA] 65535 274).wellFormed = true := by decide

/-- LIT cut by one byte; one byte short of room; exactly fitting; and empty at the message's end. -/
theorem witness_LitCopiesLiterals :
    ((decoding [0x20, 0xAA] 2).c < (decoding [0x20, 0xAA] 2).ip + 1 + (2 : Nibble).toNat) ∧
    ((decoding [0x20, 0xAA, 0xBB] 1).ip + 1 + (2 : Nibble).toNat ≤ (decoding [0x20, 0xAA, 0xBB] 1).c ∧
      (decoding [0x20, 0xAA, 0xBB] 1).l < (decoding [0x20, 0xAA, 0xBB] 1).op + (2 : Nibble).toNat) ∧
    ((decoding [0x20, 0xAA, 0xBB] 2).ip + 1 + (2 : Nibble).toNat ≤ (decoding [0x20, 0xAA, 0xBB] 2).c ∧
      (decoding [0x20, 0xAA, 0xBB] 2).op + (2 : Nibble).toNat ≤ (decoding [0x20, 0xAA, 0xBB] 2).l ∧
      ∀ k, k < (2 : Nibble).toNat → Readable .msg ((decoding [0x20, 0xAA, 0xBB] 2).ip + 1 + k) (decoding [0x20, 0xAA, 0xBB] 2)) ∧
    ((decoding [0x05] 0).ip + 1 + (0 : Nibble).toNat ≤ (decoding [0x05] 0).c ∧
      (decoding [0x05] 0).op + (0 : Nibble).toNat ≤ (decoding [0x05] 0).l) := by
  refine ⟨by decide, by decide, ⟨by decide, by decide, fun k hk => readable_of ?_⟩, by decide⟩
  have : ∀ k, k < 2 → (readByte .msg ((decoding [0x20, 0xAA, 0xBB] 2).ip + 1 + k) (decoding [0x20, 0xAA, 0xBB] 2)).isOk = true := by
    decide
  exact this k hk

/-- A message of LITX with the shortest extension, its fifteen literal bytes and a capacity. -/
def litxOf (literals l : Nat) : State := decoding ([0xF0, 0x00] ++ List.replicate literals 0x07) l

/-- The extension byte 00 after the token byte (`k = 0`), and 00 after one FF (`k = 1`). -/
theorem witness_extension :
    ExtensionAt ((litxOf 15 15).ip + 1) 0 0x00 (litxOf 15 15) ∧
    ExtensionAt ((decoding [0xF0, 0xFF, 0x00] 15).ip + 1) 1 0x00 (decoding [0xF0, 0xFF, 0x00] 15) := by
  refine ⟨⟨fun j hj => absurd hj (Nat.not_lt_zero j), by rfl, by decide⟩, ⟨fun j hj => ?_, by rfl, by decide⟩⟩
  have : j = 0 := by omega
  subst this
  rfl

/-- LITX cut at once, cut after an FF; one literal byte missing; one byte short of room; exactly fitting. -/
theorem witness_LitxCopiesLiterals :
    (∀ a, (decoding [0xF0] 20).ip + 1 ≤ a → a < (decoding [0xF0] 20).c → readByte .msg a (decoding [0xF0] 20) = .ok 0xFF) ∧
    (∀ a, (decoding [0xF0, 0xFF] 20).ip + 1 ≤ a → a < (decoding [0xF0, 0xFF] 20).c →
      readByte .msg a (decoding [0xF0, 0xFF] 20) = .ok 0xFF) ∧
    (ExtensionAt ((litxOf 14 15).ip + 1) 0 0x00 (litxOf 14 15) ∧
      (litxOf 14 15).c < (litxOf 14 15).ip + 2 + 0 + (15 + extensionSum 0 0x00)) ∧
    (ExtensionAt ((litxOf 15 14).ip + 1) 0 0x00 (litxOf 15 14) ∧
      (litxOf 15 14).ip + 2 + 0 + (15 + extensionSum 0 0x00) ≤ (litxOf 15 14).c ∧
      (litxOf 15 14).l < (litxOf 15 14).op + (15 + extensionSum 0 0x00)) ∧
    (ExtensionAt ((litxOf 15 15).ip + 1) 0 0x00 (litxOf 15 15) ∧
      (litxOf 15 15).ip + 2 + 0 + (15 + extensionSum 0 0x00) ≤ (litxOf 15 15).c ∧
      (litxOf 15 15).op + (15 + extensionSum 0 0x00) ≤ (litxOf 15 15).l ∧
      ∀ j, j < 15 + extensionSum 0 0x00 → Readable .msg ((litxOf 15 15).ip + 2 + 0 + j) (litxOf 15 15)) := by
  have ext : ∀ n l, ExtensionAt ((litxOf n l).ip + 1) 0 0x00 (litxOf n l) := fun n l =>
    ⟨fun j hj => absurd hj (Nat.not_lt_zero j), readByte_ok.2 ⟨by simp [litxOf, decoding, State.size, State.reset], rfl⟩, by decide⟩
  refine ⟨fun a h1 h2 => ?_, fun a h1 h2 => ?_, ⟨ext _ _, by decide⟩, ⟨ext _ _, by decide, by decide⟩,
    ⟨ext _ _, by decide, by decide, fun j hj => readable_of ?_⟩⟩
  · have h1 : 1 ≤ a := h1
    have h2 : a < 1 := h2
    omega
  · have h1 : 1 ≤ a := h1
    have h2 : a < 2 := h2
    have : a = 1 := by omega
    subst this
    rfl
  · have : ∀ j, j < 15 → (readByte .msg ((litxOf 15 15).ip + 2 + 0 + j) (litxOf 15 15)).isOk = true := by decide
    exact this j hj

/-- The offset bytes at the input pointer are these. -/
def OffsetAt (lo hi : Byte) (s : State) : Prop := readByte .msg s.ip s = .ok lo ∧ readByte .msg (s.ip + 1) s = .ok hi

/-- Every byte that a back-reference starts from is readable. -/
def SourceReadable (offset : Nat) (s : State) : Prop := ∀ a, s.op - offset ≤ a → a < s.op → Readable .dec a s

/-- REF with half an offset; offset 0 and offset one past the bytes written; one byte short of room; exactly fitting, from the
first byte of `DEC`. -/
theorem witness_RefCopiesBack :
    ((written [0x01] 0 [7] 5).c < (written [0x01] 0 [7] 5).ip + 2) ∧
    (OffsetAt 0x00 0x00 (written [0x00, 0x00] 0 [7] 5) ∧ (0x00 : Byte).toNat + 256 * (0x00 : Byte).toNat = 0) ∧
    (OffsetAt 0x02 0x00 (written [0x02, 0x00] 0 [7] 5) ∧
      (written [0x02, 0x00] 0 [7] 5).op < (0x02 : Byte).toNat + 256 * (0x00 : Byte).toNat) ∧
    (OffsetAt 0x01 0x00 (written [0x01, 0x00] 0 [7] 4) ∧ 1 ≤ (0x01 : Byte).toNat + 256 * (0x00 : Byte).toNat ∧
      (0x01 : Byte).toNat + 256 * (0x00 : Byte).toNat ≤ (written [0x01, 0x00] 0 [7] 4).op ∧
      (written [0x01, 0x00] 0 [7] 4).l < (written [0x01, 0x00] 0 [7] 4).op + ((0 : Nibble).toNat + 4)) ∧
    (OffsetAt 0x01 0x00 (written [0x01, 0x00] 0 [7] 5) ∧ 1 ≤ (0x01 : Byte).toNat + 256 * (0x00 : Byte).toNat ∧
      (0x01 : Byte).toNat + 256 * (0x00 : Byte).toNat ≤ (written [0x01, 0x00] 0 [7] 5).op ∧
      (written [0x01, 0x00] 0 [7] 5).op + ((0 : Nibble).toNat + 4) ≤ (written [0x01, 0x00] 0 [7] 5).l ∧
      SourceReadable 1 (written [0x01, 0x00] 0 [7] 5)) := by
  refine ⟨by decide, ⟨⟨by rfl, by rfl⟩, by decide⟩, ⟨⟨by rfl, by rfl⟩, by decide⟩, ⟨⟨by rfl, by rfl⟩, by decide, by decide, by decide⟩,
    ⟨⟨by rfl, by rfl⟩, by decide, by decide, by decide, fun a _ h2 => ?_⟩⟩
  have h2 : a < 1 := h2
  have : a = 0 := by omega
  subst this
  exact ⟨7, rfl⟩

/-- REFX with half an offset; the extension missing; the extension 00 with offset 0; one byte short of room; exactly fitting
(V23). -/
theorem witness_RefxCopiesBack :
    ((written [0x01] 0 [7] 20).c < (written [0x01] 0 [7] 20).ip + 2) ∧
    (OffsetAt 0x01 0x00 (written [0x01, 0x00] 0 [7] 20) ∧
      ∀ a, (written [0x01, 0x00] 0 [7] 20).ip + 2 ≤ a → a < (written [0x01, 0x00] 0 [7] 20).c →
        readByte .msg a (written [0x01, 0x00] 0 [7] 20) = .ok 0xFF) ∧
    (OffsetAt 0x00 0x00 (written [0x00, 0x00, 0x00] 0 [7] 20) ∧
      ExtensionAt ((written [0x00, 0x00, 0x00] 0 [7] 20).ip + 2) 0 0x00 (written [0x00, 0x00, 0x00] 0 [7] 20) ∧
      (0x00 : Byte).toNat + 256 * (0x00 : Byte).toNat = 0) ∧
    (OffsetAt 0x01 0x00 (written [0x01, 0x00, 0x00] 0 [7] 19) ∧
      ExtensionAt ((written [0x01, 0x00, 0x00] 0 [7] 19).ip + 2) 0 0x00 (written [0x01, 0x00, 0x00] 0 [7] 19) ∧
      (0x01 : Byte).toNat + 256 * (0x00 : Byte).toNat ≤ (written [0x01, 0x00, 0x00] 0 [7] 19).op ∧
      (written [0x01, 0x00, 0x00] 0 [7] 19).l < (written [0x01, 0x00, 0x00] 0 [7] 19).op + (15 + extensionSum 0 0x00 + 4)) ∧
    (OffsetAt 0x01 0x00 (written [0x01, 0x00, 0x00] 0 [7] 20) ∧
      ExtensionAt ((written [0x01, 0x00, 0x00] 0 [7] 20).ip + 2) 0 0x00 (written [0x01, 0x00, 0x00] 0 [7] 20) ∧
      (0x01 : Byte).toNat + 256 * (0x00 : Byte).toNat ≤ (written [0x01, 0x00, 0x00] 0 [7] 20).op ∧
      (written [0x01, 0x00, 0x00] 0 [7] 20).op + (15 + extensionSum 0 0x00 + 4) ≤ (written [0x01, 0x00, 0x00] 0 [7] 20).l ∧
      SourceReadable 1 (written [0x01, 0x00, 0x00] 0 [7] 20)) := by
  have none : ∀ (P : Nat → Prop) j, j < 0 → P j := fun _ j hj => absurd hj (Nat.not_lt_zero j)
  refine ⟨by decide, ⟨⟨by rfl, by rfl⟩, fun a h1 h2 => ?_⟩,
    ⟨⟨by rfl, by rfl⟩, ⟨none _, by rfl, by decide⟩, by decide⟩,
    ⟨⟨by rfl, by rfl⟩, ⟨none _, by rfl, by decide⟩, by decide, by decide⟩,
    ⟨⟨by rfl, by rfl⟩, ⟨none _, by rfl, by decide⟩, by decide, by decide, fun a _ h2 => ?_⟩⟩
  · have h1 : 2 ≤ a := h1
    have h2 : a < 2 := h2
    omega
  · have h2 : a < 1 := h2
    have : a = 0 := by omega
    subst this
    exact ⟨7, rfl⟩

/-- After END with the buffer full, and one byte short. -/
theorem witness_EndChecksExactSize :
    (({ written [] 0 [1, 2] 2 with seq := .check } : State).seq = .check ∧
      ({ written [] 0 [1, 2] 2 with seq := .check } : State).op = ({ written [] 0 [1, 2] 2 with seq := .check } : State).l) ∧
    (({ written [] 0 [1, 2] 3 with seq := .check } : State).seq = .check ∧
      ({ written [] 0 [1, 2] 3 with seq := .check } : State).op ≠ ({ written [] 0 [1, 2] 3 with seq := .check } : State).l) := by
  decide

/-- A message of exactly `L` bytes, and messages one byte shorter and longer. -/
theorem witness_PassThroughCopiesMessage :
    ((received [1, 2] 2).c = (received [1, 2] 2).l ∧ ∀ a, a < (received [1, 2] 2).c → Readable .msg a (received [1, 2] 2)) ∧
    (received [1] 2).c ≠ (received [1] 2).l ∧ (received [1, 2, 3] 2).c ≠ (received [1, 2, 3] 2).l := by
  refine ⟨⟨by decide, fun a ha => readable_of ?_⟩, by decide, by decide⟩
  have : ∀ a, a < 2 → (readByte .msg a (received [1, 2] 2)).isOk = true := by decide
  exact this a ha

/-- A message that decodes, and one that does not. -/
theorem witness_CompressedDecodeComputesReplay :
    contents .msg (received [0x20, 1, 2] 2) = .ok [0x20, 1, 2] ∧
    decodeMessage .seq16 true [0x20, 1, 2] 2 = .ok [1, 2] ∧ decodeMessage .seq16 true [0x20, 1, 2] 3 = .error .sizeMismatch ∧
    contents .msg (received [] 0) = .ok [] ∧ (received [0x20, 1, 2] 2).params.tokenFormat = .seq16 := by
  refine ⟨by rfl, by rfl, by rfl, by rfl, rfl⟩

/-- A parser that reads a message as one literal run; and a state with another format than SEQ16. -/
theorem witness_AbstractReplayUnderAnyFormat :
    contents .msg (received [1, 2] 2) = .ok [1, 2] ∧ replayStream 2 ⟨[.literal [1, 2]], false⟩ = .ok [1, 2] ∧
    replayStream 2 ⟨[.literal [1, 2]], true⟩ = .error .truncatedInput ∧
    (underFormat 7 (received [1, 2] 2)).params.tokenFormat = .other 7 ∧
    contents .msg (underFormat 7 (received [1, 2] 2)) = .ok [1, 2] := by
  refine ⟨by rfl, by rfl, by rfl, rfl, by rfl⟩

/-- Decode stages that answer a next state, in success and in failure. -/
theorem witness_DecodeStageFrame :
    (exec .decodeP (received [1, 2] 3) = .next ((received [1, 2] 3).takeError .sizeMismatch)) ∧
    holds (exec .decodeC (received [0x20, 1, 2] 2)) (fun t => t.fsm = .reconstructing) = true := by
  refine ⟨by rfl, by decide⟩

theorem witness_DecodeYieldsExactCapacity :
    replayStream 4 ⟨[.literal [1, 2], .backRef 2 2], false⟩ = .ok [1, 2, 1, 2] ∧
    decodeMessage .seq16 true [0x20, 1, 2] 2 = .ok [1, 2] ∧ decodeMessage .seq16 false [1, 2] 2 = .ok [1, 2] := by
  refine ⟨by rfl, by rfl, by rfl⟩

/-- After one literal byte: offset 0, and offset 2. -/
theorem witness_BadOffsetIsMalformed :
    (replay 5 [.literal [0xAA]] [] = .ok [0xAA] ∧ (0 : Nat) = 0) ∧
    (replay 5 [.literal [0xAA]] [] = .ok [0xAA] ∧ [(0xAA : Byte)].length < 2) := by
  refine ⟨⟨by rfl, rfl⟩, ⟨by rfl, by decide⟩⟩

theorem witness_FillWritesCopies : 5 ≤ 5 ∧ 5 ≤ 5 := by decide

theorem witness_DecodeIsTokenByToken : (received [0x20, 1, 2] 2).params.tokenFormat = .seq16 ∧
    ∃ t, exec .decodeC (received [0x20, 1, 2] 2) = .next t := ⟨rfl, _, rfl⟩

/-- At the only byte of a frame of one byte. -/
theorem witness_AddbAddsModulo :
    readByte .ref 0 (framed [255] [1]) = .ok 255 ∧ readByte .dec 0 (framed [255] [1]) = .ok 1 := by
  refine ⟨by rfl, by rfl⟩

theorem witness_SubbSubtractsModulo :
    readByte .ref 0 (framed [0] [255]) = .ok 0 ∧ readByte .dec 0 (framed [0] [255]) = .ok 255 := by
  refine ⟨by rfl, by rfl⟩

/-- Nine frame bytes, two bitmap bytes; and no frame byte at all. -/
theorem witness_DeltaReconstructsEveryByte :
    (∀ a, a < 9 + bitmapBytes 9 → Readable .dec a (framed (List.replicate 9 100) [1, 2, 3, 4, 5, 6, 7, 8, 9, 0x00, 0xFF])) ∧
    (∀ a, a < 0 + bitmapBytes 0 → Readable .dec a (framed [] [])) := by
  refine ⟨fun a ha => readable_of ?_, fun a ha => absurd ha (Nat.not_lt_zero a)⟩
  have : ∀ a, a < 11 → (readByte .dec a (framed (List.replicate 9 100) [1, 2, 3, 4, 5, 6, 7, 8, 9, 0x00, 0xFF])).isOk = true := by
    decide
  exact this a ha

theorem witness_ReplaceCopiesDecoded : ∀ a, a < 3 → Readable .dec a (framed [255, 255, 255] [0, 0, 0]) := fun a ha => by
  have : ∀ a, a < 3 → (readByte .dec a (framed [255, 255, 255] [0, 0, 0])).isOk = true := by decide
  exact readable_of (this a ha)

/-- V43 and its padding: bitmap bytes 20 and E0 differ in bits 6 and 7 only. -/
theorem witness_PaddingBitsAreIgnored :
    (framed [10, 10, 10, 10, 10, 10] [1, 1, 1, 1, 1, 1, 0xE0]).ref = (framed [10, 10, 10, 10, 10, 10] [1, 1, 1, 1, 1, 1, 0x20]).ref ∧
    (∀ i, i < 6 → readByte .dec i (framed [10, 10, 10, 10, 10, 10] [1, 1, 1, 1, 1, 1, 0xE0]) =
      readByte .dec i (framed [10, 10, 10, 10, 10, 10] [1, 1, 1, 1, 1, 1, 0x20])) ∧
    (∀ i, i < 6 → (0xE0 : Byte).getLsbD (i % 8) = (0x20 : Byte).getLsbD (i % 8)) ∧
    (∃ t, exec .reconD (framed [10, 10, 10, 10, 10, 10] [1, 1, 1, 1, 1, 1, 0xE0]) = .next t) ∧
    (∃ t, exec .reconD (framed [10, 10, 10, 10, 10, 10] [1, 1, 1, 1, 1, 1, 0x20]) = .next t) := by
  refine ⟨by rfl, fun i hi => ?_, by decide, ⟨_, rfl⟩, ⟨_, rfl⟩⟩
  match i, hi with
  | 0, _ => rfl
  | 1, _ => rfl
  | 2, _ => rfl
  | 3, _ => rfl
  | 4, _ => rfl
  | 5, _ => rfl
  | n + 6, h => omega

/-- V47 with the bitmap 02. -/
theorem witness_RoundTripReproducesFrame :
    contents .ref (framed [10, 200, 0] [0x0A, 0x64, 0xFF, 0x02]) = .ok [10, 200, 0] ∧
    contents .dec (framed [10, 200, 0] [0x0A, 0x64, 0xFF, 0x02]) = .ok (encodeDelta 3 [10, 200, 0] [20, 100, 255] [0x02]) ∧
    [(0x02 : Byte)].length = bitmapBytes 3 := by
  refine ⟨by rfl, by rfl, by decide⟩

/-- The smallest configuration, and one whose decoded length is exactly the bound. -/
theorem witness_StartOpensSession :
    ((SessionConfig.mk 1 1 false false).w ≠ 0 ∧ (SessionConfig.mk 1 1 false false).h ≠ 0 ∧
      decodedBytes ⟨1, 1, false, false⟩ ≤ State.reset.params.maxDecodedBytes) ∧
    ((SessionConfig.mk 2 1 true true).w ≠ 0 ∧ (SessionConfig.mk 2 1 true true).h ≠ 0 ∧
      decodedBytes ⟨2, 1, true, true⟩ ≤ (Params.mk .seq16 0 7 none).maxDecodedBytes) := by decide

/-- A zero width, a zero height, and a decoded length one over the bound. -/
theorem witness_StartRefusesConfiguration :
    (SessionConfig.mk 0 5 true true).w = 0 ∧ (SessionConfig.mk 5 0 true true).h = 0 ∧
    (Params.mk .seq16 0 6 none).maxDecodedBytes < decodedBytes ⟨2, 1, true, true⟩ := by decide

/-- From reset, and from a session with a frame. -/
theorem witness_StartCarriesNothingOver :
    ({ session with ref := [(0, 9)] } : State).params = State.reset.params ∧ session.inputs = State.reset.inputs ∧
    session.draws = State.reset.draws ∧ acceptable ⟨2, 1, true, true⟩ State.reset.params = true ∧
    (∃ t, exec (.start ⟨2, 1, true, true⟩) session = .next t) ∧ ∃ t, exec (.start ⟨2, 1, true, true⟩) State.reset = .next t := by
  refine ⟨rfl, rfl, rfl, by decide, ⟨_, rfl⟩, ⟨_, rfl⟩⟩

/-- An unbounded input buffer, one that the message just fits, and one that it does not. -/
theorem witness_RecvLatchesMessage :
    (∀ bound, State.reset.params.maxMessageBytes = some bound → [(1 : Byte)].length ≤ bound) ∧
    (∀ bound, (Params.mk .seq16 0 9 (some 1)).maxMessageBytes = some bound → [(1 : Byte)].length ≤ bound) ∧
    (Params.mk .seq16 0 9 (some 0)).maxMessageBytes = some 0 ∧ 0 < [(1 : Byte)].length := by
  refine ⟨fun b h => (by cases h), fun b h => (by cases h; decide), rfl, by decide⟩

/-- At a token byte; at a back-reference part; at the message's end before a token and after literals; at a sign bit; at the
loop's end. -/
theorem witness_StepRunsDecodedOperation :
    ((decoding [0x20, 1, 2] 2).seq = .token ∧ readByte .msg (decoding [0x20, 1, 2] 2).ip (decoding [0x20, 1, 2] 2) = .ok 0x20) ∧
    (({ written [0x01, 0x00] 0 [7] 5 with seq := .backRef 0x10 } : State).seq = .backRef 0x10 ∧
      ({ written [0x01, 0x00] 0 [7] 5 with seq := .backRef 0x10 } : State).ip <
        ({ written [0x01, 0x00] 0 [7] 5 with seq := .backRef 0x10 } : State).c) ∧
    ((decoding [] 0).seq = .token ∧ (decoding [] 0).c ≤ (decoding [] 0).ip) ∧
    (({ written [0x05] 1 [] 0 with seq := .backRef 0x05 } : State).seq = .backRef 0x05 ∧
      ({ written [0x05] 1 [] 0 with seq := .backRef 0x05 } : State).c ≤ ({ written [0x05] 1 [] 0 with seq := .backRef 0x05 } : State).ip) ∧
    (({ framed [10] [1, 0x01] with seq := .delta } : State).seq = .delta ∧
      ({ framed [10] [1, 0x01] with seq := .delta } : State).i < ({ framed [10] [1, 0x01] with seq := .delta } : State).n ∧
      readByte .dec (1 + 0 / 8) { framed [10] [1, 0x01] with seq := .delta } = .ok 0x01) ∧
    (({ framed [10] [1, 0x01] with seq := .delta, i := 1 } : State).seq = .delta ∧
      ({ framed [10] [1, 0x01] with seq := .delta, i := 1 } : State).n ≤ ({ framed [10] [1, 0x01] with seq := .delta, i := 1 } : State).i) := by
  refine ⟨⟨rfl, by rfl⟩, ⟨rfl, by decide⟩, ⟨rfl, by decide⟩, ⟨rfl, by decide⟩, ⟨rfl, by decide, by rfl⟩, ⟨rfl, by decide⟩⟩

theorem witness_StageMovesOn :
    (∃ t, exec (.lit 2 0) (decoding [0x20, 1, 2] 2) = .next t) ∧ (∃ t, exec (.litx 0) (decoding [0xF0] 20) = .next t) ∧
    (∃ t, exec (.ref 0) (written [0x01, 0x00] 0 [7] 5) = .next t) ∧ (∃ t, exec .refx (written [0x01] 0 [7] 5) = .next t) ∧
    (∃ t, exec .decodeP (received [1, 2] 2) = .next t) ∧ (∃ t, exec .reconD (framed [10] [1, 0x01]) = .next t) ∧
    ∃ t, exec .reconR (framed [10] [1]) = .next t :=
  ⟨⟨_, rfl⟩, ⟨_, rfl⟩, ⟨_, rfl⟩, ⟨_, rfl⟩, ⟨_, rfl⟩, ⟨_, rfl⟩, ⟨_, rfl⟩⟩

/-- Between stages with a slot, and inside a stage. -/
theorem witness_SlotsTakenInOrder :
    ((∃ t, step { session with inputs := [.quiet] } = .next t) ∧ ({ session with inputs := [.quiet] } : State).seq = .idle) ∧
    ((∃ t, step { decoding [0x20, 1, 2] 2 with inputs := [.quiet] } = .next t) ∧
      ({ decoding [0x20, 1, 2] 2 with inputs := [.quiet] } : State).seq ≠ .idle) :=
  ⟨⟨⟨_, rfl⟩, rfl⟩, ⟨⟨_, rfl⟩, by decide⟩⟩

/-- One state for each row of the internal steps, with and without a quiet slot. -/
theorem witness_StepRunsSelectedStage :
    (∀ f p, ({ session with fsm := f, presented := p } : State).seq = .idle ∧
      ({ session with fsm := f, presented := p } : State).status = .active ∧
      ({ session with fsm := f, presented := p } : State).inputs = []) ∧
    (({ session with fsm := .decompressing, inputs := [.quiet] } : State).fsm = .decompressing ∧
      ({ session with fsm := .decompressing, inputs := [.quiet] } : State).inputs = [.quiet]) ∧
    ({ session with fsm := .reconstructing } : State).fsm = .reconstructing ∧
    (({ session with fsm := .presenting } : State).fsm = .presenting ∧
      ({ session with fsm := .presenting } : State).presented = false) ∧
    (({ session with fsm := .presenting, presented := true } : State).fsm = .presenting ∧
      ({ session with fsm := .presenting, presented := true } : State).presented = true) :=
  ⟨fun _ _ => ⟨rfl, rfl, rfl⟩, ⟨rfl, rfl⟩, rfl, ⟨rfl, rfl⟩, ⟨rfl, rfl⟩⟩

/-- A start that falls into a cycle, and a message that is awaited. -/
theorem witness_StepAcceptsSessionStart :
    (({ session with fsm := .presenting, inputs := [.event (.sessionStart ⟨1, 1, false, false⟩)] } : State).seq = .idle ∧
      ({ session with fsm := .presenting, inputs := [.event (.sessionStart ⟨1, 1, false, false⟩)] } : State).inputs =
        .event (.sessionStart ⟨1, 1, false, false⟩) :: []) ∧
    (({ session with inputs := [.event (.message [1])] } : State).seq = .idle ∧
      ({ session with inputs := [.event (.message [1])] } : State).inputs = .event (.message [1]) :: [] ∧
      ({ session with inputs := [.event (.message [1])] } : State).awaitingFrame = true) := by decide

theorem witness_EarlyMessageViolatesProtocol :
    ∀ f ∈ [Fsm.decompressing, .reconstructing, .presenting],
      ({ session with fsm := f, inputs := [.event (.message [1])] } : State).seq = .idle ∧
      ({ session with fsm := f, inputs := [.event (.message [1])] } : State).status = .active ∧
      ({ session with fsm := f, inputs := [.event (.message [1])] } : State).fsm ≠ .awaitingFrame ∧
      ({ session with fsm := f, inputs := [.event (.message [1])] } : State).inputs = .event (.message [1]) :: [] := by decide

theorem witness_ClosedChannelTerminates :
    ∀ f ∈ [Fsm.awaitingFrame, .decompressing, .reconstructing, .presenting],
      ({ session with fsm := f, inputs := [.event .channelClosed] } : State).seq = .idle ∧
      ({ session with fsm := f, inputs := [.event .channelClosed] } : State).status = .active ∧
      ({ session with fsm := f, inputs := [.event .channelClosed] } : State).inputs = .event .channelClosed :: [] := by decide

theorem witness_TimeoutOnlyWhileWaiting :
    (∀ f, ({ session with fsm := f, inputs := [.event .timeoutExpired] } : State).seq = .idle ∧
      ({ session with fsm := f, inputs := [.event .timeoutExpired] } : State).status = .active ∧
      ({ session with fsm := f, inputs := [.event .timeoutExpired] } : State).inputs = .event .timeoutExpired :: []) ∧
    ({ session with inputs := [.event .timeoutExpired] } : State).fsm = .awaitingFrame ∧
    ({ session with fsm := .reconstructing, inputs := [.event .timeoutExpired] } : State).fsm ≠ .awaitingFrame :=
  ⟨fun _ => ⟨rfl, rfl, rfl⟩, rfl, by decide⟩

/-- V52 and V58. -/
theorem witness_DeadSessionIgnoresEvents :
    (({ State.reset with inputs := [.event (.message [1])] } : State).seq = .idle ∧
      ({ State.reset with inputs := [.event (.message [1])] } : State).status ≠ .active ∧
      ∀ cfg, InEvent.message [1] ≠ .sessionStart cfg) ∧
    (({ session with status := .terminated .sizeMismatch, inputs := [.event .channelClosed] } : State).seq = .idle ∧
      ({ session with status := .terminated .sizeMismatch, inputs := [.event .channelClosed] } : State).status ≠ .active ∧
      ∀ cfg, InEvent.channelClosed ≠ .sessionStart cfg) := by
  refine ⟨⟨rfl, by decide, fun cfg h => ?_⟩, ⟨rfl, by decide, fun cfg h => ?_⟩⟩ <;> cases h

theorem witness_WaitingKeepsState :
    (State.reset.seq = .idle ∧ State.reset.status ≠ .active ∧ State.reset.inputs = []) ∧
    (({ session with inputs := [.quiet] } : State).seq = .idle ∧ ({ session with inputs := [.quiet] } : State).fsm = .awaitingFrame ∧
      ({ session with inputs := [.quiet] } : State).inputs = [.quiet]) := by decide

/-- The session of P1 meets the invariant. -/
theorem session_inv : Inv session :=
  .of_idle rfl rfl rfl (fun sp => by cases sp <;> simp [SpaceOk, session, State.reset, State.mem, Memory.wf]) (fun _ => by decide)
    rfl (fun _ h => by cases h) (fun _ h => by cases h)

/-- The session after the message of V10. -/
def receivedV10 : State :=
  { session with fsm := .decompressing, msg := Memory.ofBytes 0 [0x11, 0x01, 0x01, 0x00, 0x10, 0x03], c := 6 }

theorem receivedV10_inv : Inv receivedV10 := by
  refine .of_idle rfl rfl rfl (fun sp => ?_) (fun _ => by decide) rfl (fun _ _ => ⟨by decide, fun a ha => readable_of ?_⟩)
    (fun _ h => by cases h)
  · cases sp with
    | msg => exact ⟨Memory.ofBytes_wf _ _, by decide⟩
    | dec => simp [SpaceOk, receivedV10, session, State.reset, State.mem, Memory.wf]
    | ref => simp [SpaceOk, receivedV10, session, State.reset, State.mem, Memory.wf]
  · have : ∀ a, a < 6 → (readByte .msg a receivedV10).isOk = true := by decide
    exact this a ha

/-- A terminated session to which a message comes. -/
theorem witness_TerminationIsSticky :
    Inv { session with status := .terminated .timeout, inputs := [.event (.message [1])] } ∧
    (∃ t, step { session with status := .terminated .timeout, inputs := [.event (.message [1])] } = .next t) ∧
    ∀ cfg rest, ({ session with status := .terminated .timeout, inputs := [.event (.message [1])] } : State).inputs ≠
      .event (.sessionStart cfg) :: rest := by
  refine ⟨.of_inactive rfl rfl rfl (fun sp => ?_) (by decide) rfl, ⟨_, rfl⟩, fun cfg rest h => by cases h⟩
  cases sp <;> simp [SpaceOk, session, State.reset, State.mem, Memory.wf]

/-- Between stages, and inside the decode of V10. -/
theorem witness_StepKeepsInv : Inv session ∧ Inv receivedV10 := ⟨session_inv, receivedV10_inv⟩

/-- A step of each kind: nothing emitted, an acknowledgment, a presentation, a failure. -/
theorem witness_EveryOutputHasItsCause :
    (∃ t, step receivedV10 = .next t) ∧ (∃ t, step { session with fsm := .presenting, presented := true } = .next t) ∧
    (∃ t, step { session with fsm := .presenting } = .next t) ∧ (∃ t, step { session with inputs := [.event .channelClosed] } = .next t) :=
  ⟨⟨_, rfl⟩, ⟨_, rfl⟩, ⟨_, rfl⟩, ⟨_, rfl⟩⟩

theorem witness_FrameWrittenOnlyByOwners :
    (∃ t, step session = .next t) ∧ ∃ t, step { session with inputs := [.event (.sessionStart ⟨1, 1, false, false⟩)] } = .next t :=
  ⟨⟨_, rfl⟩, ⟨_, rfl⟩⟩

theorem witness_ConfigurationFixedInSession :
    (∃ t, step session = .next t) ∧ ∃ t, step { session with inputs := [.event (.sessionStart ⟨1, 1, false, false⟩)] } = .next t :=
  ⟨⟨_, rfl⟩, ⟨_, rfl⟩⟩

theorem witness_CycleEndsInAckOrAbort :
    Inv receivedV10 ∧ receivedV10.seq = .idle ∧ receivedV10.status = .active ∧ receivedV10.fsm = .decompressing ∧
    receivedV10.inputs = [] := ⟨receivedV10_inv, rfl, rfl, rfl, rfl⟩

/-- The first message of P1b. -/
theorem witness_CycleMatchesAtomicView :
    Inv { session with inputs := cycleSlots [0x11, 0x01, 0x01, 0x00, 0x10, 0x03] } ∧
    ({ session with inputs := cycleSlots [0x11, 0x01, 0x01, 0x00, 0x10, 0x03] } : State).seq = .idle ∧
    ({ session with inputs := cycleSlots [0x11, 0x01, 0x01, 0x00, 0x10, 0x03] } : State).awaitingFrame = true ∧
    fitsMessage 6 session.params = true ∧
    ({ session with inputs := cycleSlots [0x11, 0x01, 0x01, 0x00, 0x10, 0x03] } : State).inputs =
      cycleSlots [0x11, 0x01, 0x01, 0x00, 0x10, 0x03] ++ [] ∧
    contents .ref { session with inputs := cycleSlots [0x11, 0x01, 0x01, 0x00, 0x10, 0x03] } = .ok [0, 0, 0, 0, 0, 0] ∧
    decodeMessage session.params.tokenFormat true [0x11, 0x01, 0x01, 0x00, 0x10, 0x03] 7 = .ok [1, 1, 1, 1, 1, 1, 3] ∧
    decodeMessage session.params.tokenFormat true [0x10, 0xAA, 0x00, 0x00] 7 = .error .malformedStream :=
  ⟨session_inv.with_inputs _, rfl, by decide, rfl, rfl, rfl, by rfl, by rfl⟩

/-- The session of P1b with its two messages to come. -/
def lockStep : State :=
  { session with inputs := [[0x11, 0x01, 0x01, 0x00, 0x10, 0x03], [0x11, 0x01, 0x01, 0x00, 0x10, 0x03]].flatMap cycleSlots }

theorem witness_LockStepAnswersEveryMessage :
    Inv lockStep ∧ lockStep.seq = .idle ∧ lockStep.awaitingFrame = true ∧ contents .ref lockStep = .ok [0, 0, 0, 0, 0, 0] ∧
    (∀ message ∈ [[(0x11 : Byte), 0x01, 0x01, 0x00, 0x10, 0x03], [0x11, 0x01, 0x01, 0x00, 0x10, 0x03]],
      fitsMessage message.length lockStep.params = true) ∧
    List.Forall₂ (fun message d => decodeMessage lockStep.params.tokenFormat lockStep.cfg.compression message lockStep.l = .ok d)
      [[0x11, 0x01, 0x01, 0x00, 0x10, 0x03], [0x11, 0x01, 0x01, 0x00, 0x10, 0x03]] [[1, 1, 1, 1, 1, 1, 3], [1, 1, 1, 1, 1, 1, 3]] :=
  ⟨session_inv.with_inputs _, rfl, by decide, rfl, by decide, .cons rfl (.cons rfl .nil)⟩

/-- The last channel of the last pixel of a picture of two columns and one row. -/
theorem witness_FrameLayoutIsDense :
    (1 < (SessionConfig.mk 2 1 true true).w.toNat ∧ 0 < (SessionConfig.mk 2 1 true true).h.toNat ∧ 2 < 3) ∧
    5 < frameBytes ⟨2, 1, true, true⟩ := by decide

/-- The shortest copy of SEQ16, four bytes (R91, V33). -/
theorem witness_ParsedBackReferencesCopyBytes :
    Token.backRef 2 4 ∈ (parserOf .seq16 [0x20, 0xAA, 0xBB, 0x02, 0x00]).tokens ∧
    Token.backRef 2 4 ∈ (parseSeq16 [0x20, 0xAA, 0xBB, 0x02, 0x00]).tokens := by decide

end Sys2Proof.Tests
end

section
/-! The state's rules (10_state.md): what one step changes, said once as `step_frame`, and the statements that follow from
it; the single operations of DECODE.C; and the session start, which carries nothing over. -/

open Sys2Proof

namespace Sys2Proof.Machine

/-! ### A stage as a run of single steps (R28) -/

/-- A run of a stage is a run of steps of the block, since inside a stage each step is the stage's next operation. -/
theorem exists_runSteps_of_runStage {n : Nat} {s t : State} (h : runStage n s = .next t) :
    ∃ k, runSteps k s = .next t := by
  induction n generalizing s with
  | zero => exact ⟨0, h⟩
  | succ n ih =>
    by_cases hs : s.seq = .idle
    · rw [runStage_idle _ _ hs] at h
      exact ⟨0, h⟩
    · rw [runStage, if_neg hs] at h
      cases hm : microStep s with
      | next u =>
        rw [hm] at h
        obtain ⟨k, hk⟩ := ih h
        exact ⟨k + 1, by rw [runSteps, step_micro hs, hm]; exact hk⟩
      | fault f => rw [hm] at h; cases h
      | refused r => rw [hm] at h; cases h

/-- Settles O17: under SEQ16 DECODE.C is the run of its stage, and that is a run of single steps. -/
theorem decodeIsTokenByToken : Obligations.DecodeIsTokenByToken := by
  intro s t hf h
  exact exists_runSteps_of_runStage ((execDecodeC_seq16 hf).symm.trans h)

/-! ### The session start (R41) -/

theorem execStart_of_acceptable {cfg : SessionConfig} {s : State} (h : acceptable cfg s.params = true) :
    execStart cfg s = .next (startSession cfg s) := if_pos h

/-- A started session depends on the state before it only through the parameters, the schedule, the count of free values and
the trace. -/
theorem startSession_congr {cfg : SessionConfig} {s s' : State} (hp : s'.params = s.params) (hi : s'.inputs = s.inputs)
    (hd : s'.draws = s.draws) :
    startSession cfg s' = { startSession cfg s with trace := (startSession cfg s').trace } := by
  simp only [startSession, hp, hi, hd]

/-- Settles O26: both starts are accepted, and every field but the trace is a function of what the two states agree on. -/
theorem startCarriesNothingOver : Obligations.StartCarriesNothingOver := by
  intro cfg s s' t t' hp hi hd ha h h'
  cases (execStart_of_acceptable ha).symm.trans h
  cases (execStart_of_acceptable (hp ▸ ha)).symm.trans h'
  exact startSession_congr hp hi hd

/-! ### What the stages can change -/

/-- What the reconstruct stage can change (R32, R171): the index, the frame, and where the block stands afterwards. -/
def OnlyRecon (s t : State) : Prop :=
  t = { s with i := t.i, ref := t.ref, seq := t.seq, fsm := t.fsm, presented := t.presented }

theorem DeltaFrame.onlyRecon {s t : State} (h : DeltaFrame s t) : OnlyRecon s t := by
  cases h with
  | next h => unfold OnlyRecon; rw [h]
  | done h => unfold OnlyRecon; rw [h]

theorem execReconD_onlyRecon {s t : State} (h : execReconD s = .next t) : OnlyRecon s t :=
  (runStage_delta_frame (s := { s with i := 0, seq := .delta }) rfl h).onlyRecon

theorem execReconR_onlyRecon {s t : State} (h : execReconR s = .next t) : OnlyRecon s t := by
  unfold OnlyRecon
  rw [execReconR_frame h]

theorem execDecodeP_frame {s t : State} (h : execDecodeP s = .next t) : DecodeFrame s t := by
  rcases execDecodeP_cases h with ⟨-, h⟩ | ⟨-, h⟩
  · exact .success (by rw [h])
  · exact .error _ (by rw [h]; rfl)

/-- The decode stage leaves the schedule alone. -/
theorem DecodeFrame.inputs_eq {s t : State} (h : DecodeFrame s t) : t.inputs = s.inputs := by
  cases h with
  | next h => exact (congrArg State.inputs h :)
  | success h => exact (congrArg State.inputs h :)
  | error _ h => exact (congrArg State.inputs h :)

/-- The decode stage leaves the frame alone, also on an error (R65). -/
theorem DecodeFrame.ref_eq {s t : State} (h : DecodeFrame s t) : t.ref = s.ref := by
  cases h with
  | next h => exact (congrArg State.ref h :)
  | success h => exact (congrArg State.ref h :)
  | error _ h => exact (congrArg State.ref h :)

/-- The decode stage emits nothing but the failure that ends the session. -/
theorem DecodeFrame.trace_cases {s t : State} (h : DecodeFrame s t) :
    t.trace = s.trace ∨ ∃ kind, t.trace = s.trace ++ [.fail kind] ∧ t.status = .terminated kind := by
  cases h with
  | next h => exact .inl (congrArg State.trace h :)
  | success h => exact .inl (congrArg State.trace h :)
  | error kind h => exact .inr ⟨kind, (congrArg State.trace h :), (congrArg State.status h :)⟩

/-! ### What a step can change -/

/-- The state at which a step's operation runs: between stages the first slot of the schedule is taken, inside a stage none
(R37, R199; log entry 6). -/
def State.takeSlot (s : State) : State := { s with inputs := if s.seq = .idle then s.inputs.tail else s.inputs }

theorem State.takeSlot_idle {s : State} (h : s.seq = .idle) : s.takeSlot = { s with inputs := s.inputs.tail } := by
  rw [State.takeSlot, if_pos h]

theorem State.takeSlot_inside {s : State} (h : s.seq ≠ .idle) : s.takeSlot = s := by
  rw [State.takeSlot, if_neg h]

theorem contents_takeSlot (sp : Space) (s : State) : contents sp s.takeSlot = contents sp s :=
  contents_congr (by cases sp <;> rfl) (by cases sp <;> rfl)

/-- Everything a step can change, by the rule that changes it (R161 to R178). -/
inductive StepFrame (s t : State) : Prop where
  | decode (h : DecodeFrame s.takeSlot t)
  | recon (hs : s.seq = .delta ∨ (s.seq = .idle ∧ s.status = .active ∧ s.fsm = .reconstructing))
      (h : OnlyRecon s.takeSlot t)
  | wait (h : t = s.takeSlot)
  | recv (h : t = { s.takeSlot with msg := t.msg, c := t.c, fsm := .decompressing })
  | present (bytes : List Byte) (hs : s.seq = .idle) (ha : s.status = .active) (hf : s.fsm = .presenting)
      (hp : s.presented = false) (hb : contents .ref s = .ok bytes)
      (h : t = { s.takeSlot with presented := true, trace := s.trace ++ [.present s.cfg.w s.cfg.h bytes] })
  | ack (hs : s.seq = .idle) (ha : s.status = .active) (hf : s.fsm = .presenting) (hp : s.presented = true)
      (h : t = { s.takeSlot with fsm := .awaitingFrame, trace := s.trace ++ [.ack s.params.ackSentinel] })
  | start (cfg : SessionConfig) (rest : List Slot) (hs : s.seq = .idle)
      (hi : s.inputs = .event (.sessionStart cfg) :: rest) (h : t = startSession cfg s.takeSlot)
  | error (kind : ErrorKind) (h : t = s.takeSlot.takeError kind)

theorem StepFrame.of_micro {s t : State} (hs : s.seq ≠ .idle) (h : microStep s = .next t) : StepFrame s t := by
  by_cases hd : s.seq = .delta
  · exact .recon (.inl hd) (by rw [State.takeSlot_inside hs]; exact (microStep_delta_frame hd h).onlyRecon)
  · exact .decode (by rw [State.takeSlot_inside hs]; exact microStep_frame hd h)

theorem StepFrame.of_start {cfg : SessionConfig} {rest : List Slot} {s t : State} (hs : s.seq = .idle)
    (hi : s.inputs = .event (.sessionStart cfg) :: rest) (h : execStart cfg s.takeSlot = .next t) : StepFrame s t := by
  rcases execStart_cases (cfg := cfg) (s := s.takeSlot) with ⟨-, he⟩ | ⟨-, he⟩ <;> cases he.symm.trans h
  · exact .start cfg rest hs hi rfl
  · exact .error _ rfl

theorem StepFrame.of_recv {bytes : List Byte} {s t : State} (h : execRecv bytes s.takeSlot = .next t) : StepFrame s t := by
  rcases execRecv_cases (bytes := bytes) (s := s.takeSlot) with ⟨-, he⟩ | ⟨-, he⟩ <;> cases he.symm.trans h
  · exact .recv rfl
  · exact .error _ rfl

theorem StepFrame.of_present {s t : State} (hs : s.seq = .idle) (ha : s.status = .active) (hf : s.fsm = .presenting)
    (hp : s.presented = false) (h : execPresent s.takeSlot = .next t) : StepFrame s t := by
  obtain ⟨bytes, hb, he⟩ := execPresent_eq s.takeSlot
  cases he.symm.trans h
  exact .present bytes hs ha hf hp (contents_takeSlot .ref s ▸ hb) rfl

theorem step_frame {s t : State} (h : step s = .next t) : StepFrame s t := by
  have hc := step_cases s
  rw [h] at hc
  cases hc with
  | micro hs h => exact .of_micro hs h.symm
  | wait hs h => rw [← State.takeSlot_idle hs] at h; cases h; exact .wait rfl
  | decodeC hs _ _ _ h => rw [← State.takeSlot_idle hs] at h; exact .decode (execDecodeC_frame h.symm)
  | decodeP hs _ _ _ h => rw [← State.takeSlot_idle hs] at h; exact .decode (execDecodeP_frame h.symm)
  | reconD hs ha hf _ h =>
    rw [← State.takeSlot_idle hs] at h
    exact .recon (.inr ⟨hs, ha, hf⟩) (execReconD_onlyRecon h.symm)
  | reconR hs ha hf _ h =>
    rw [← State.takeSlot_idle hs] at h
    exact .recon (.inr ⟨hs, ha, hf⟩) (execReconR_onlyRecon h.symm)
  | present hs ha hf hp h => rw [← State.takeSlot_idle hs] at h; exact .of_present hs ha hf hp h.symm
  | ack hs ha hf hp h => rw [← State.takeSlot_idle hs] at h; cases h; exact .ack hs ha hf hp rfl
  | start cfg rest hs hi h =>
    rw [show rest = s.inputs.tail by rw [hi]; rfl, ← State.takeSlot_idle hs] at h
    exact .of_start hs hi h.symm
  | recv bytes rest hs hi _ h =>
    rw [show rest = s.inputs.tail by rw [hi]; rfl, ← State.takeSlot_idle hs] at h
    exact .of_recv h.symm
  | abort kind hs _ h => rw [← State.takeSlot_idle hs] at h; cases h; exact .error kind rfl

/-! ### The statements about steps -/

/-- No operation writes the schedule: what a step takes of it is what `takeSlot` takes. -/
theorem StepFrame.inputs_eq {s t : State} (h : StepFrame s t) : t.inputs = s.takeSlot.inputs := by
  cases h with
  | decode h => exact h.inputs_eq
  | recon _ h => exact (congrArg State.inputs h :)
  | wait h => exact (congrArg State.inputs h :)
  | recv h => exact (congrArg State.inputs h :)
  | present _ _ _ _ _ _ h => exact (congrArg State.inputs h :)
  | ack _ _ _ _ h => exact (congrArg State.inputs h :)
  | start _ _ _ _ h => exact (congrArg State.inputs h :)
  | error _ h => exact (congrArg State.inputs h :)

/-- Settles O34: only the fetch touches the schedule, and it takes a slot exactly between stages. -/
theorem slotsTakenInOrder : Obligations.SlotsTakenInOrder := by
  intro s t h
  have hi := (step_frame h).inputs_eq
  exact ⟨fun hs => by rw [hi, State.takeSlot_idle hs], fun hs => by rw [hi, State.takeSlot_inside hs]⟩

/-- Settles O46: an error, in the decode stage or elsewhere, emits its failure; a presentation, an acknowledgment
and a session start emit their own event; the other rules emit none. -/
theorem everyOutputHasItsCause : Obligations.EveryOutputHasItsCause := by
  intro s t h
  cases step_frame h with
  | decode h =>
    rcases h.trace_cases with ht | ⟨kind, ht, hk⟩
    · exact .inl ht
    · exact .inr (.inr (.inr ⟨kind, ht, hk, h.ref_eq⟩))
  | recon _ h => exact .inl (congrArg State.trace h :)
  | wait h => exact .inl (congrArg State.trace h :)
  | recv h => exact .inl (congrArg State.trace h :)
  | present bytes hs ha hf hp hb h => subst h; exact .inr (.inr (.inl ⟨bytes, rfl, hb, rfl, hs, ha, hf, hp, rfl⟩))
  | ack hs ha hf hp h =>
    subst h
    exact .inr (.inl ⟨rfl, decide_eq_true ⟨ha, rfl⟩, hs, .inl ⟨ha, hf, hp⟩⟩)
  | start cfg rest hs hi h =>
    subst h
    exact .inr (.inl ⟨rfl, rfl, hs, .inr ⟨cfg, rest, hi⟩⟩)
  | error kind h => subst h; exact .inr (.inr (.inr ⟨kind, rfl, rfl, rfl⟩))

/-- Settles O47: every rule but the reconstruct stage and an accepted session start leaves `REF` as it was. -/
theorem frameWrittenOnlyByOwners : Obligations.FrameWrittenOnlyByOwners := by
  intro s t h
  cases step_frame h with
  | decode h => exact .inl h.ref_eq
  | recon hs _ => exact .inr (hs.imp_right .inl)
  | wait h => exact .inl (congrArg State.ref h :)
  | recv h => exact .inl (congrArg State.ref h :)
  | present _ _ _ _ _ _ h => exact .inl (congrArg State.ref h :)
  | ack _ _ _ _ h => exact .inl (congrArg State.ref h :)
  | start cfg rest hs hi _ => exact .inr (.inr (.inr ⟨hs, cfg, rest, hi⟩))
  | error _ h => exact .inl (congrArg State.ref h :)

end Sys2Proof.Machine
end

section
/-! The memory's rules (20_memory.md): the layout of a frame, what the reconstruct stage reads of `DEC`, and that every step keeps
the invariant. -/

open Sys2Proof

namespace Sys2Proof.Machine

/-! ### The frame layout (R54) -/

theorem pixelAddress_div_three {ch : Nat} (w x y : Nat) (hch : ch < 3) : pixelAddress w x y ch / 3 = y * w + x := by
  unfold pixelAddress; omega

theorem pixelAddress_mod_three {ch : Nat} (w x y : Nat) (hch : ch < 3) : pixelAddress w x y ch % 3 = ch := by
  unfold pixelAddress; omega

/-- The row of a pixel is the quotient of its index by the row length. -/
theorem pixelIndex_div {w x : Nat} (y : Nat) (hx : x < w) : (y * w + x) / w = y := by
  rw [Nat.mul_comm, Nat.mul_add_div (by omega), Nat.div_eq_of_lt hx, Nat.add_zero]

/-- Settles O52: an address is three times the index of its pixel plus its channel, and the index is the row times the row length
plus the column, so that quotients and remainders give the coordinates back. -/
theorem frameLayoutIsDense : Obligations.FrameLayoutIsDense := by
  intro cfg
  refine ⟨fun x y ch hx hy hch => ?_, fun x y ch x' y' ch' hx hx' hch hch' he => ?_, fun a ha => ?_⟩
  · have hindex : y * cfg.w.toNat + x < cfg.h.toNat * cfg.w.toNat := by
      rw [Nat.mul_comm y]
      exact Nat.mul_add_lt_mul_of_lt_of_lt hy hx
    rw [pixelAddress, frameBytes, Nat.mul_comm cfg.w.toNat]
    omega
  · have hpixel : y * cfg.w.toNat + x = y' * cfg.w.toNat + x' := by
      rw [← pixelAddress_div_three _ x y hch, he, pixelAddress_div_three _ _ _ hch']
    refine ⟨?_, ?_, ?_⟩
    · rw [← Nat.mul_add_mod_of_lt (a := y) hx, hpixel, Nat.mul_add_mod_of_lt hx']
    · rw [← pixelIndex_div y hx, hpixel, pixelIndex_div y' hx']
    · rw [← pixelAddress_mod_three cfg.w.toNat x y hch, he, pixelAddress_mod_three _ _ _ hch']
  · have hpixel : a / 3 < cfg.w.toNat * cfg.h.toNat := by unfold frameBytes at ha; omega
    have hw : 0 < cfg.w.toNat := Nat.pos_of_mul_pos_right (Nat.zero_lt_of_lt hpixel)
    refine ⟨a / 3 % cfg.w.toNat, a / 3 / cfg.w.toNat, a % 3, Nat.mod_lt _ hw, Nat.div_lt_of_lt_mul hpixel,
      Nat.mod_lt _ (by decide), ?_⟩
    rw [pixelAddress, Nat.div_add_mod', Nat.div_add_mod]

/-! ### What the loop of `RECON.D` reads of `DEC` (R58, R147) -/

theorem OnlyRecon.n_eq {s t : State} (h : OnlyRecon s t) : t.n = s.n := (congrArg State.n h :)

theorem OnlyRecon.readByte_dec {s t : State} (h : OnlyRecon s t) (a : Nat) : readByte .dec a t = readByte .dec a s :=
  readByte_congr (by rw [h]; rfl) (by rw [h]; rfl) a

/-- Two states at the same point of the reconstruct stage, with the same frame, whose `DEC` agree on the delta bytes and on one
sign bit for each frame byte. -/
structure SameSlices (s s' : State) : Prop where
  n : s'.n = s.n
  i : s'.i = s.i
  seq : s'.seq = s.seq
  ref : s'.ref = s.ref
  bytes : ∀ j, j < s.n → readByte .dec j s' = readByte .dec j s
  signs : ∀ j b b', j < s.n → readByte .dec (s.n + j / 8) s = .ok b → readByte .dec (s.n + j / 8) s' = .ok b' →
    b.getLsbD (j % 8) = b'.getLsbD (j % 8)

/-- What the reconstruct stage can change is outside the slices. -/
theorem SameSlices.of_onlyRecon {s s' u u' : State} (h : SameSlices s s') (hu : OnlyRecon s u) (hu' : OnlyRecon s' u')
    (hi : u'.i = u.i) (hseq : u'.seq = u.seq) (href : u'.ref = u.ref) : SameSlices u u' where
  n := by rw [hu.n_eq, hu'.n_eq, h.n]
  i := hi
  seq := hseq
  ref := href
  bytes j := by rw [hu.n_eq, hu.readByte_dec, hu'.readByte_dec]; exact h.bytes j
  signs j b b' := by rw [hu.n_eq, hu.readByte_dec, hu'.readByte_dec]; exact h.signs j b b'

/-- A sign bit that could be read is a bit of a readable bitmap byte. -/
theorem readSign_inv {i : Nat} {sign : Bool} {s : State} (h : readSign i s = .ok sign) :
    ∃ b, readByte .dec (s.n + i / 8) s = .ok b ∧ b.getLsbD (i % 8) = sign := by
  cases hb : readByte .dec (s.n + i / 8) s with
  | ok b => exact ⟨b, rfl, Except.ok.inj ((readSign_ok hb).symm.trans h)⟩
  | error f => simp [readSign, hb] at h

theorem SameSlices.sign_eq {s s' : State} (h : SameSlices s s') {j : Nat} {sg sg' : Bool} (hj : j < s.n)
    (hs : readSign j s = .ok sg) (hs' : readSign j s' = .ok sg') : sg' = sg := by
  obtain ⟨b, hb, rfl⟩ := readSign_inv hs
  obtain ⟨b', hb', rfl⟩ := readSign_inv hs'
  exact (h.signs j b b' hj hb (h.n ▸ hb')).symm

/-- The update of a frame byte depends on the frame and on its delta byte alone. -/
theorem updateRefByte_congr {f : Byte → Byte → Byte} {i : Nat} {s s' t : State} (hn : s'.n = s.n) (hr : s'.ref = s.ref)
    (hd : readByte .dec i s' = readByte .dec i s) (h : updateRefByte f i s = .ok t) :
    updateRefByte f i s' = .ok { s' with ref := t.ref } := by
  unfold updateRefByte at h ⊢
  rw [readByte_congr (sp := .ref) hn hr, hd]
  cases hrv : readByte .ref i s with
  | error e => simp [hrv] at h
  | ok r =>
    cases hdv : readByte .dec i s with
    | error e => simp [hrv, hdv] at h
    | ok d =>
      simp only [hrv, hdv] at h
      obtain ⟨hlt, rfl⟩ := writeByte_ok.1 h
      exact writeByte_ok.2 ⟨by rw [State.size_ref, hn]; exact hlt, by simp only [State.mem_ref, hr]; rfl⟩

theorem runMicro_sign_ref_eq {sign : Bool} {i : Nat} {s s' t t' : State} (hn : s'.n = s.n) (hr : s'.ref = s.ref)
    (hd : readByte .dec i s' = readByte .dec i s) (h : runMicro (decodeSign sign i) s = .next t)
    (h' : runMicro (decodeSign sign i) s' = .next t') : t'.ref = t.ref := by
  have key : ∀ f, (Res.ofExcept (updateRefByte f i s)).finish = .next t →
      (Res.ofExcept (updateRefByte f i s')).finish = .next t' → t'.ref = t.ref := by
    intro f h h'
    cases hu : updateRefByte f i s with
    | error e => simp [hu] at h
    | ok u =>
      rw [updateRefByte_congr hn hr hd hu] at h'
      rw [hu] at h
      cases h
      cases h'
      rfl
  cases sign with
  | false => exact key add8 h h'
  | true => exact key sub8 h h'

/-- One step of the loop of R145 that answers: a frame byte by its sign bit, or the end of the stage. -/
theorem microStep_delta_next {s t : State} (hs : s.seq = .delta) (h : microStep s = .next t) :
    (s.i < s.n ∧ ∃ sign, readSign s.i s = .ok sign ∧ runMicro (decodeSign sign s.i) { s with i := s.i + 1 } = .next t) ∨
    (s.n ≤ s.i ∧ t = s.enterPresenting) := by
  rcases microStep_cases (s := s) with ⟨hd, -⟩ | ⟨hd, -⟩ | ⟨hd, -⟩ | ⟨b, hd, -⟩ | ⟨hd | ⟨b, hd⟩, -⟩ | ⟨hd, -⟩ |
    ⟨-, hi, sign, hr, hm⟩ | ⟨-, -, f, -, hm⟩ | ⟨-, hi, hm⟩
  iterate 7 (rw [hd] at hs; cases hs)
  · exact .inl ⟨hi, sign, hr, hm.symm.trans h⟩
  · cases hm.symm.trans h
  · cases hm.symm.trans h
    exact .inr ⟨hi, rfl⟩

/-- Inside a stage, a run that answers begins with a step that answers. -/
theorem runStage_succ_next {n : Nat} {s t : State} (hs : s.seq ≠ .idle) (h : runStage (n + 1) s = .next t) :
    ∃ u, microStep s = .next u ∧ runStage n u = .next t := by
  rw [runStage, if_neg hs] at h
  cases hm : microStep s with
  | next u => exact ⟨u, rfl, by simpa only [hm] using h⟩
  | fault f => simp [hm] at h
  | refused r => simp [hm] at h

/-- One step of the loop from each of two states that agree on the slices leads to states that agree on them. -/
theorem SameSlices.microStep_next {s s' u u' : State} (hsame : SameSlices s s') (hs : s.seq = .delta)
    (hu : microStep s = .next u) (hu' : microStep s' = .next u') : (u.seq = .delta ∨ u.seq = .idle) ∧ SameSlices u u' := by
  have hs' : s'.seq = .delta := hsame.seq.trans hs
  have hlast : s'.n ≤ s'.i ↔ s.n ≤ s.i := by rw [hsame.n, hsame.i]
  have agree := hsame.of_onlyRecon (microStep_delta_frame hs hu).onlyRecon (microStep_delta_frame hs' hu').onlyRecon
  rcases microStep_delta_next hs hu with ⟨hi, sign, hsg, hrun⟩ | ⟨hi, rfl⟩
  · rcases microStep_delta_next hs' hu' with ⟨-, sign', hsg', hrun'⟩ | ⟨hi', -⟩
    · rw [hsame.i] at hsg' hrun'
      cases hsame.sign_eq hi hsg hsg'
      have huf := runMicro_sign_frame hrun
      have huf' := runMicro_sign_frame hrun'
      refine ⟨.inl (by rw [huf]; exact hs), agree (by rw [huf, huf']) (by rw [huf, huf']; exact hsame.seq) ?_⟩
      exact runMicro_sign_ref_eq (s := { s with i := s.i + 1 }) (s' := { s' with i := s.i + 1 }) hsame.n hsame.ref
        (hsame.bytes s.i hi) hrun hrun'
    · exact absurd (hlast.1 hi') (Nat.not_le.2 hi)
  · rcases microStep_delta_next hs' hu' with ⟨hi', -⟩ | ⟨-, rfl⟩
    · exact absurd (hlast.2 hi) (Nat.not_le.2 hi')
    · exact ⟨.inr rfl, agree hsame.i rfl hsame.ref⟩

/-- Two runs of the loop from states that agree on the slices write the same frame. -/
theorem SameSlices.runStage_ref_eq {n : Nat} {s s' t t' : State} (hsame : SameSlices s s') (hs : s.seq = .delta ∨ s.seq = .idle)
    (h : runStage n s = .next t) (h' : runStage n s' = .next t') : t'.ref = t.ref := by
  induction n generalizing s s' with
  | zero => cases h; cases h'; exact hsame.ref
  | succ n ih =>
    rcases hs with hs | hs
    · obtain ⟨u, hu, h⟩ := runStage_succ_next (by simp [hs]) h
      obtain ⟨u', hu', h'⟩ := runStage_succ_next (by simp [hsame.seq, hs]) h'
      obtain ⟨hnext, hagree⟩ := hsame.microStep_next hs hu hu'
      exact ih hagree hnext h h'
    · cases (runStage_idle _ _ hs).symm.trans h
      cases (runStage_idle _ _ (hsame.seq.trans hs)).symm.trans h'
      exact hsame.ref

/-- Settles O22: RECON.D is the loop of R145 from index 0, and two runs of it that read the same slices write the same frame. -/
theorem paddingBitsAreIgnored : Obligations.PaddingBitsAreIgnored := by
  intro s s' t t' hn href hbytes hsigns h h'
  have h : runStage (s.n + 1) { s with i := 0, seq := .delta } = .next t := h
  have h' : runStage (s.n + 1) { s' with i := 0, seq := .delta } = .next t' := by rw [← hn]; exact h'
  have hsame : SameSlices { s with i := 0, seq := .delta } { s' with i := 0, seq := .delta } :=
    ⟨hn, rfl, rfl, href, hbytes, hsigns⟩
  exact hsame.runStage_ref_eq (.inl rfl) h h'

/-! ### The invariant over a step (R70, R119, R151) -/

/-- A frame is no longer than the decoded buffer it is reconstructed from (R9). -/
theorem Inv.n_le_l {s : State} (h : Inv s) : s.n ≤ s.l := by
  rw [h.sizeL, h.sizeN, decodedBytes]
  split <;> omega

/-- Between the stages of one session the invariant asks for the spaces and for the bytes that the next stage reads. -/
theorem Inv.between {s t : State} (h : Inv s)
    (hf : t = { s with fsm := t.fsm, presented := t.presented, c := t.c, i := t.i, seq := t.seq, msg := t.msg, dec := t.dec,
                       ref := t.ref, trace := t.trace })
    (hs : t.seq = .idle) (hsp : ∀ sp, SpaceOk sp t)
    (hmsg : t.fsm = .decompressing → fitsMessage t.c t.params = true ∧ ∀ a, a < t.c → Readable .msg a t)
    (hdec : t.fsm = .reconstructing → ∀ a, a < t.l → Readable .dec a t) : Inv t := by
  refine .of_idle ?_ ?_ ?_ hsp ?_ hs (fun _ => hmsg) fun _ => hdec
  · rw [hf]; exact h.sizeN
  · rw [hf]; exact h.sizeM
  · rw [hf]; exact h.sizeL
  · rw [hf]; exact h.accepted

/-- `DECODE.P` answers a state that meets the invariant: every byte of `DEC` is a byte of the message. -/
theorem execDecodeP_inv {s : State} (h : Inv s) (ha : s.status = .active) (hd : s.fsm = .decompressing) :
    ∃ t, execDecodeP s = .next t ∧ Inv t := by
  by_cases hc : s.c = s.l
  · have hmsg : ∀ a, a < s.l → Readable .msg a s := fun a hlt => (h.message ha hd).2 a (hc ▸ hlt)
    obtain ⟨u, hu⟩ := copyRun_succeeds (src := .msg) (dst := .dec) (fromBase := 0) (toBase := 0) (count := s.l) (k := 0)
      (s := s) (by simp) fun j _ hj => .inl (by rw [Nat.zero_add]; exact hmsg j (by omega))
    obtain ⟨huf, -, hcopied⟩ := copyRun_ok (.inl (by decide)) hu
    refine ⟨u.enterReconstructing, by simp [execDecodeP, hc, hu],
      h.between ?_ rfl (fun sp => ?_) (fun hx => by cases hx) fun _ a hlt => ?_⟩
    · rw [huf]; rfl
    · exact spaceOk_congr (by cases sp <;> rfl) (by cases sp <;> rfl) (copyRun_spaceOk hu sp (h.spaces sp))
    · have hlt : a < s.l := by rw [huf] at hlt; exact hlt
      have := hcopied a (Nat.zero_le _) (by omega)
      rw [Nat.zero_add, frame_readByte (sp' := .msg) huf (by decide)] at this
      unfold Readable
      rw [readByte_enterReconstructing, this]
      exact hmsg a hlt
  · exact ⟨_, by rw [execDecodeP, if_neg hc], h.takeError rfl _⟩

/-- `RECON.D` answers a state that meets the invariant, as the run of its stage. -/
theorem execReconD_inv {s : State} (h : Inv s) (ha : s.status = .active) (hf : s.fsm = .reconstructing)
    (hd : s.cfg.delta = true) : ∃ t, execReconD s = .next t ∧ Inv t :=
  runStage_inv
    { sizeN := h.sizeN, sizeM := h.sizeM, sizeL := h.sizeL
      spaces := fun sp => spaceOk_congr (s := s) (by cases sp <;> rfl) (by cases sp <;> rfl) (h.spaces sp)
      accepted := h.accepted
      message := h.message
      decoded := h.decoded
      decoding := fun hx => by rcases hx with hx | ⟨b, hx⟩ | hx <;> cases hx
      format := fun hx => by rcases hx with hx | ⟨b, hx⟩ | hx <;> cases hx
      ended := fun hx => by cases hx
      delta := fun _ => ⟨ha, hf, hd, Nat.zero_le _⟩ }

/-- `RECON.R` answers a state that meets the invariant. -/
theorem execReconR_inv {s : State} (h : Inv s) (ha : s.status = .active) (hf : s.fsm = .reconstructing) :
    ∃ t, execReconR s = .next t ∧ Inv t := by
  obtain ⟨u, hu, huf, -⟩ := replaceRun_eq (count := s.n) (s := { s with i := 0 }) (by simp) fun a hlt =>
    h.decoded ha hf a (Nat.lt_of_lt_of_le hlt h.n_le_l)
  have hsp : ∀ sp, SpaceOk sp u := fun sp =>
    replaceRun_spaceOk hu sp (spaceOk_congr (s := s) (by cases sp <;> rfl) (by cases sp <;> rfl) (h.spaces sp))
  refine ⟨u.enterPresenting, by simp [execReconR, hu],
    h.between ?_ rfl (fun sp => ?_) (fun hx => by cases hx) fun hx => by cases hx⟩
  · rw [huf]; rfl
  · exact spaceOk_congr (by cases sp <;> rfl) (by cases sp <;> rfl) (hsp sp)

/-- A started session meets the invariant: its memories are empty, and no message or decoded buffer is at hand. -/
theorem startSession_inv {cfg : SessionConfig} {s : State} (h : acceptable cfg s.params = true) : Inv (startSession cfg s) :=
  .of_idle rfl rfl rfl (fun sp => by cases sp <;> exact ⟨Memory.nil_wf _, by simp⟩) (fun _ => h) rfl (fun _ hx => by cases hx)
    fun _ hx => by cases hx

theorem execStart_inv {cfg : SessionConfig} {s : State} (h : Inv s) : ∃ t, execStart cfg s = .next t ∧ Inv t := by
  rcases execStart_cases (cfg := cfg) (s := s) with ⟨hacc, he⟩ | ⟨-, he⟩
  · exact ⟨_, he, startSession_inv hacc⟩
  · exact ⟨_, he, h.takeError rfl _⟩

/-- `RECV` answers a state that meets the invariant: the latched message is canonical, and each of its bytes has a value. -/
theorem execRecv_inv {bytes : List Byte} {s : State} (h : Inv s) (hs : s.seq = .idle) :
    ∃ t, execRecv bytes s = .next t ∧ Inv t := by
  rcases execRecv_cases (bytes := bytes) (s := s) with ⟨hfit, he⟩ | ⟨-, he⟩
  · refine ⟨_, he, h.between rfl hs (fun sp => ?_) (fun _ => ⟨hfit, fun a hlt => ?_⟩) fun hx => by cases hx⟩
    · cases sp with
      | msg =>
        refine ⟨Memory.ofBytes_wf 0 bytes, fun x hx => ?_⟩
        have hlt := (Memory.ofBytes_ge hx).2
        rwa [Nat.zero_add] at hlt
      | dec => exact h.spaces .dec
      | ref => exact h.spaces .ref
    · have hlt : a < bytes.length := hlt
      exact ⟨bytes[a], readByte_ok.2 ⟨hlt, (Memory.read_ofBytes bytes a).trans (List.getElem?_eq_getElem hlt)⟩⟩
  · exact ⟨_, he, h.takeError rfl _⟩

/-- `PRESENT` answers a state that meets the invariant: every byte of `REF` has a value. -/
theorem execPresent_inv {s : State} (h : Inv s) (hs : s.seq = .idle) (hf : s.fsm = .presenting) :
    ∃ t, execPresent s = .next t ∧ Inv t := by
  obtain ⟨bytes, -, he⟩ := execPresent_eq s
  exact ⟨_, he, h.between rfl hs (fun sp => spaceOk_congr (by cases sp <;> rfl) (by cases sp <;> rfl) (h.spaces sp))
    (fun hx => by rw [hf] at hx; cases hx) fun hx => by rw [hf] at hx; cases hx⟩

theorem execAck_inv {s : State} (h : Inv s) (hs : s.seq = .idle) : ∃ t, execAck s = .next t ∧ Inv t :=
  ⟨_, rfl, h.between rfl hs (fun sp => spaceOk_congr (s := s) (by cases sp <;> rfl) (by cases sp <;> rfl) (h.spaces sp))
    (fun hx => by cases hx) fun hx => by cases hx⟩

/-- Settles O45: each operation that a step can run, in the states in which it is selected, answers a state that meets the
invariant. -/
theorem stepKeepsInv : Obligations.StepKeepsInv := by
  intro s hinv
  have htaken : ∀ rest, Inv { s with inputs := rest } := hinv.with_inputs
  cases step_cases s with
  | micro _ h => rw [h]; exact microStep_inv hinv
  | wait _ h => exact ⟨_, h, htaken _⟩
  | decodeC _ ha hf hc h => rw [h]; exact execDecodeC_inv (htaken _) ha hf hc
  | decodeP _ ha hf _ h => rw [h]; exact execDecodeP_inv (htaken _) ha hf
  | reconD _ ha hf hd h => rw [h]; exact execReconD_inv (htaken _) ha hf hd
  | reconR _ ha hf _ h => rw [h]; exact execReconR_inv (htaken _) ha hf
  | present hs _ hf _ h => rw [h]; exact execPresent_inv (htaken _) hs hf
  | ack hs _ _ _ h => rw [h]; exact execAck_inv (htaken _) hs
  | start cfg rest _ _ h => rw [h]; exact execStart_inv (htaken _)
  | recv bytes rest hs _ _ h => rw [h]; exact execRecv_inv (htaken _) hs
  | abort kind _ _ h => rw [h]; exact ⟨_, rfl, (htaken s.inputs.tail).takeError rfl kind⟩

end Sys2Proof.Machine
end

section
/-! The encoding's rules (30_encoding.md): the assembler and the parser of SEQ16 and that they are inverse, the lengths that a
parser yields, the replay of a token list, the decode stage under any token format, and the decoder's choice of one operation. -/

open Sys2Proof

namespace Sys2Proof

/-! ### Lengths and offsets (R86, R87, R90) -/

/-- A length is read back from its field and its extension, whatever follows. -/
@[simp] theorem takeLength_lengthExtension (n : Nat) (rest : List Byte) :
    takeLength (lengthField n) (lengthExtension n ++ rest) = some (n, rest) := by
  unfold takeLength lengthField lengthExtension
  by_cases hn : n < 15
  · have hfield : (BitVec.ofNat 4 n).toNat = n := by rw [BitVec.toNat_ofNat, Nat.mod_eq_of_lt (by omega)]
    have hne : BitVec.ofNat 4 n ≠ 15 := fun h => by
      rw [h] at hfield
      exact Nat.ne_of_gt hn hfield
    rw [if_pos hn, if_pos hn, if_neg hne, hfield, List.nil_append]
  · have hlast : (BitVec.ofNat 8 ((n - 15) % 255)).toNat = (n - 15) % 255 := by
      rw [BitVec.toNat_ofNat, Nat.mod_eq_of_lt (by omega)]
    have hne : BitVec.ofNat 8 ((n - 15) % 255) ≠ 0xFF := fun h => by
      rw [h] at hlast
      exact absurd hlast.symm (Nat.ne_of_lt (Nat.mod_lt _ (by decide)))
    have hsum : 15 + 255 * ((n - 15) / 255) + (n - 15) % 255 = n := by omega
    rw [if_neg hn, if_neg hn, if_pos rfl, List.append_assoc, List.singleton_append, sumExtension_run _ _ _ hne, hlast, hsum]

/-- Every 16-bit offset is assembled from its low and its high byte. -/
theorem assembleOffset_ofNat {offset : Nat} (h : offset < 65536) :
    assembleOffset (BitVec.ofNat 8 offset) (BitVec.ofNat 8 (offset >>> 8)) = offset := by
  rw [assembleOffset_eq, BitVec.toNat_ofNat, BitVec.toNat_ofNat, Nat.shiftRight_eq_div_pow]
  omega

/-! ### The parser on assembled bytes (R85, R89, R100) -/

theorem parseSequences_nil (fuel : Nat) : parseSequences fuel [] = ⟨[], false⟩ := by cases fuel <;> rfl

/-- The parser reads an assembled sequence, and goes on with the bytes after it. -/
theorem parseSequences_encodeSequence {q : Sequence} (hq : q.wellFormed = true) (fuel : Nat) (rest : List Byte) :
    parseSequences (fuel + 1) (encodeSequence q ++ rest) =
      ⟨q.tokens ++ (parseSequences fuel rest).tokens, (parseSequences fuel rest).truncated⟩ := by
  simp only [Sequence.wellFormed, Bool.and_eq_true, decide_eq_true_eq] at hq
  obtain ⟨hoffset, hlength⟩ := hq
  simp [encodeSequence, parseSequences, assembleOffset_ofNat hoffset, Nat.sub_add_cancel hlength, Sequence.tokens]

/-- The parser ends after the literals of a last sequence. -/
theorem parseSequences_encodeTail (fuel : Nat) (literals : List Byte) :
    parseSequences (fuel + 1) (encodeTail literals) = ⟨[.literal literals], false⟩ := by
  simp [encodeTail, parseSequences]

theorem encodeStream_cons (q : Sequence) (qs : List Sequence) (tail : Option (List Byte)) :
    encodeStream (q :: qs) tail = encodeSequence q ++ encodeStream qs tail := by
  simp only [encodeStream, List.flatMap_cons, List.append_assoc]

theorem streamTokens_cons (q : Sequence) (qs : List Sequence) (tail : Option (List Byte)) :
    streamTokens (q :: qs) tail = q.tokens ++ streamTokens qs tail := by
  simp only [streamTokens, List.flatMap_cons, List.append_assoc]

/-- With fuel for its bytes, the parser reads a whole assembled stream: each sequence takes at least its token byte. -/
theorem parseSequences_encodeStream {sequences : List Sequence} {tail : Option (List Byte)} {fuel : Nat}
    (hwf : ∀ q ∈ sequences, q.wellFormed = true) (hfuel : (encodeStream sequences tail).length ≤ fuel) :
    parseSequences fuel (encodeStream sequences tail) = ⟨streamTokens sequences tail, false⟩ := by
  induction sequences generalizing fuel with
  | nil =>
    cases tail with
    | none => exact parseSequences_nil fuel
    | some literals =>
      obtain ⟨fuel, rfl⟩ := Nat.exists_eq_add_one.2 (Nat.lt_of_lt_of_le (Nat.succ_pos _) hfuel)
      exact parseSequences_encodeTail fuel literals
  | cons q qs ih =>
    rw [encodeStream_cons] at hfuel ⊢
    obtain ⟨fuel, rfl⟩ := Nat.exists_eq_add_one.2 (Nat.lt_of_lt_of_le (Nat.succ_pos _) hfuel)
    rw [List.forall_mem_cons] at hwf
    have hrest : (encodeStream qs tail).length ≤ fuel := by
      rw [List.length_append, encodeSequence, List.length_cons] at hfuel
      omega
    rw [parseSequences_encodeSequence hwf.1, ih hwf.2 hrest, streamTokens_cons]

/-- Settles O3: by induction on the sequences, with the length of the message as fuel. -/
theorem seqStreamsParseBack : Obligations.SeqStreamsParseBack :=
  fun _ _ hwf => parseSequences_encodeStream hwf (Nat.le_refl _)

/-- Settles O4: token byte, two offset bytes, and for each of the two lengths the bytes of its extension. -/
theorem sequenceLengthCounted : Obligations.SequenceLengthCounted := by
  intro q _
  simp only [encodeSequence, List.length_cons, List.length_append, List.length_nil, lengthExtension_length, matchBias]
  omega

/-! ### The lengths that a parser yields (R84, R91) -/

/-- The bias of the match length is a lower bound of every back-reference that SEQ16 yields: a stream that ends before or in a
literal run yields no token, one that ends or is cut after it yields the literals alone, and a whole sequence adds the bias. -/
theorem matchBias_le_of_mem_parseSequences {fuel : Nat} {message : List Byte} {offset length : Nat}
    (h : .backRef offset length ∈ (parseSequences fuel message).tokens) : matchBias ≤ length := by
  fun_induction parseSequences fuel message with
  | case1 | case2 | case3 | case4 => cases h
  | case5 | case6 | case7 =>
    have h : Token.backRef offset length = .literal _ := List.mem_singleton.1 h
    cases h
  | case8 =>
    rename_i ih
    rcases List.mem_cons.1 h with h | h
    · have h : Token.backRef offset length = .literal _ := h
      cases h
    · rcases List.mem_cons.1 h with h | h
      · cases h
        exact Nat.le_add_left _ _
      · exact ih h

theorem matchBias_le_of_mem_parseSeq16 {message : List Byte} {offset length : Nat}
    (h : .backRef offset length ∈ (parseSeq16 message).tokens) : matchBias ≤ length :=
  matchBias_le_of_mem_parseSequences h

/-- Settles O53: SEQ16 adds the bias 4 to every length, and another format yields only tokens that R84 allows. -/
theorem parsedBackReferencesCopyBytes : Obligations.ParsedBackReferencesCopyBytes := by
  refine ⟨fun format message offset length h => ?_, fun _ _ _ => matchBias_le_of_mem_parseSeq16⟩
  cases format with
  | seq16 => exact Nat.le_trans (by decide) (matchBias_le_of_mem_parseSeq16 h)
  | other k => exact of_decide_eq_true (List.all_eq_true.1 (parseOther_wellFormed k message) _ h)

/-! ### The decoder (R81, R93, R97) -/

/-- Settles O1: each word is one row of the tables. -/
theorem tableWordsDecode : Obligations.TableWordsDecode := by
  unfold Obligations.TableWordsDecode
  decide

theorem decode_encode {i : Instr} (h : WellFormed i = true) : decode (encode i) = i := by
  cases i with
  | lit ll mm =>
    have hll : tokenLL (tokenByte ll mm) ≠ 15 := by simpa [WellFormed] using h
    rw [encode, decode, decodeLiteralPart_lit hll, tokenLL_tokenByte, tokenMM_tokenByte]; rfl
  | litx mm => rw [encode, decode, decodeLiteralPart_litx (tokenLL_tokenByte _ _), tokenMM_tokenByte]; rfl
  | ref mm =>
    have hmm : tokenMM (tokenByte 0 mm) ≠ 15 := by simpa [WellFormed] using h
    rw [encode, decode, decodeBackRefPart_ref hmm, tokenMM_tokenByte]; rfl
  | refx => rw [encode, decode, decodeBackRefPart_refx (tokenMM_tokenByte _ _)]; rfl
  | _ => rfl

/-- Settles O2: a token part is selected by its own field, and the other rows by a selector of their own. -/
theorem decodeInvertsEncode : Obligations.DecodeInvertsEncode := fun _ => decode_encode

end Sys2Proof

namespace Sys2Proof.Machine

/-! ### The replay of a token list (R95, R101, R124) -/

/-- A replay that succeeds on the first tokens goes on with the rest from the bytes written. -/
theorem replay_append {l : Nat} {before : List Token} {out written : List Byte} (h : replay l before out = .ok written)
    (after : List Token) : replay l (before ++ after) out = replay l after written := by
  induction before generalizing out with
  | nil => cases h; rfl
  | cons token before ih =>
    cases token with
    | literal bytes =>
      rw [replay] at h
      rw [List.cons_append, replay]
      split at h
      · cases h
      · next hfits => rw [if_neg hfits, ih h]
    | backRef offset length =>
      rw [replay] at h
      rw [List.cons_append, replay]
      split at h
      · cases h
      · next hoffset =>
        split at h
        · cases h
        · next hfits => rw [if_neg hoffset, if_neg hfits, ih h]

/-- Settles O15: the tokens before replay first, and then the offset is the first thing that is checked. -/
theorem badOffsetIsMalformed : Obligations.BadOffsetIsMalformed := by
  intro l offset length before after truncated out hbefore hoffset
  simp only [replayStream, replay_append hbefore, replay, if_pos hoffset]

/-- A copy from one byte back repeats the last byte. -/
theorem appendCopy_one_replicate (b : Byte) (count k : Nat) :
    appendCopy 1 count (List.replicate (k + 1) b) = List.replicate (k + 1 + count) b := by
  induction count generalizing k with
  | zero => rfl
  | succ count ih =>
    have hlast : (List.replicate (k + 1) b).getD ((List.replicate (k + 1) b).length - 1) 0 = b := by simp
    rw [appendCopy, hlast, ← List.replicate_succ', ih, Nat.add_right_comm (k + 1), Nat.add_assoc (k + 1)]

/-- Settles O16: the literal writes one copy, and the back-reference repeats it. -/
theorem fillWritesCopies : Obligations.FillWritesCopies := by
  intro b n l hn hl
  have hcopy := appendCopy_one_replicate b (n - 1) 0
  rw [show 0 + 1 + (n - 1) = n by omega] at hcopy
  rw [← hcopy]
  simp only [fillTokens, replay, List.nil_append, List.length_nil, List.length_singleton]
  rw [if_neg (by omega), if_neg (by omega), if_neg (by omega)]
  rfl

/-! ### The decode stage under any token format (R124) -/

/-- The stage ends as the replay of the parser's tokens does. -/
theorem decompressAbstract_ends {message : List Byte} {s : State} (parse : List Byte → TokenStream)
    (hmsg : contents .msg s = .ok message) :
    DecodeEnds s (fun ip => ip = 0) (replayStream s.l (parse message)) (decompressAbstract parse s) := by
  have hread : readRun .msg s.c 0 s = .ok message := hmsg
  have hreplay := replayTokens_eq (parse message).tokens [] { s with ip := 0, op := 0 } ⟨rfl, by simp⟩ (Nat.zero_le _)
  simp only [decompressAbstract, hread, replayStream]
  cases hr : replay s.l (parse message).tokens [] with
  | error kind =>
    simp only [hr] at hreplay
    obtain ⟨t, ht, honly⟩ := hreplay
    rw [ht]
    exact ⟨_, rfl, by rw [honly]; rfl⟩
  | ok out =>
    simp only [hr] at hreplay
    obtain ⟨t, ht, honly, hout, -, hip⟩ := hreplay
    rw [ht]
    have hts : OnlyDecode s t := by rw [OnlyDecode, honly]
    by_cases hcut : (parse message).truncated = true
    · simp only [hcut, if_true]
      exact ⟨_, rfl, by rw [hts]; rfl⟩
    · have hends := (finishDecode_ends hout).trans hts
      have hl : t.l = s.l := by rw [hts]
      simp only [hip, hl] at hends
      simpa only [hcut, Bool.false_eq_true, if_false] using hends

/-- Settles O12: the stage of another format is the one of its parser, and it ends as the replay does. -/
theorem abstractReplayUnderAnyFormat : Obligations.AbstractReplayUnderAnyFormat := by
  refine fun s message hmsg => ⟨fun k hk => execDecodeC_other hk, fun parse => ?_⟩
  have hends := decompressAbstract_ends parse hmsg
  cases hr : replayStream s.l (parse message) with
  | ok out =>
    rw [hr] at hends
    obtain ⟨t, hnext, hframe, -, hout⟩ := hends
    exact ⟨t, hnext, hframe, hout⟩
  | error kind =>
    rw [hr] at hends
    exact hends

/-! ### One operation -/

/-- Settles O28: every byte of `REF` has a value, so that the read of the whole frame succeeds. -/
theorem presentHandsOverFrame : Obligations.PresentHandsOverFrame := by
  intro s
  obtain ⟨bytes, hbytes, hexec⟩ := execPresent_eq s
  exact ⟨bytes, hbytes, (contents_ok.1 hbytes).1, hexec⟩

/-- An operation of a stage is the instruction of its name. -/
theorem exec_toInstr (op : MicroOp) (s : State) : exec op.toInstr s = runMicro op s := by
  cases op <;> rfl

/-- A step inside a stage is the instruction that the stage's fetch finds. -/
theorem step_of_fetchMicro_run {op : MicroOp} {s t : State} (h : fetchMicro s = .run op t) : step s = exec op.toInstr t := by
  have hs : s.seq ≠ .idle := fun hidle => by simp [fetchMicro, hidle] at h
  rw [step_micro hs, exec_toInstr, microStep, h]

theorem fetchMicro_token {t : Byte} {s : State} (hs : s.seq = .token) (ht : readByte .msg s.ip s = .ok t) :
    fetchMicro s = .run (decodeLiteralPart t) s := by
  have hip : s.ip < s.c := readByte_lt ht
  simp only [fetchMicro, hs, if_pos hip, ht]

theorem fetchMicro_backRef {t : Byte} {s : State} (hs : s.seq = .backRef t) (hip : s.ip < s.c) :
    fetchMicro s = .run (decodeBackRefPart t) s := by
  simp only [fetchMicro, hs, if_pos hip]

/-- The message may end before a token byte or after the literals of a sequence (R89). -/
theorem fetchMicro_message_end {s : State} (hs : s.seq = .token ∨ ∃ t, s.seq = .backRef t) (hip : s.c ≤ s.ip) :
    fetchMicro s = .run .endStream s := by
  rcases hs with hs | ⟨t, hs⟩ <;> simp only [fetchMicro, hs, if_neg (Nat.not_lt.2 hip)]

theorem fetchMicro_delta {b : Byte} {s : State} (hs : s.seq = .delta) (hi : s.i < s.n)
    (hb : readByte .dec (s.n + s.i / 8) s = .ok b) :
    fetchMicro s = .run (decodeSign (b.getLsbD (s.i % 8)) s.i) { s with i := s.i + 1 } := by
  simp only [fetchMicro, hs, if_pos hi, readSign_ok hb]

theorem microStep_delta_end {s : State} (hs : s.seq = .delta) (hi : s.n ≤ s.i) : microStep s = .next s.enterPresenting := by
  simp only [microStep, fetchMicro, hs, if_neg (Nat.not_lt.2 hi), closeStage, if_true]

/-- Settles O32: at each point inside a stage, a step is the instruction of the operation that is fetched there. -/
theorem stepRunsDecodedOperation : Obligations.StepRunsDecodedOperation := fun s =>
  ⟨fun _ hs ht => step_of_fetchMicro_run (fetchMicro_token hs ht),
    fun _ hs hip => step_of_fetchMicro_run (fetchMicro_backRef hs hip),
    fun hs hip => step_of_fetchMicro_run (fetchMicro_message_end hs hip),
    fun _ hs hi hb => step_of_fetchMicro_run (fetchMicro_delta hs hi hb),
    fun hs hi => by rw [step_micro (by simp [hs]), microStep_delta_end hs hi]; rfl⟩

end Sys2Proof.Machine
end

section
/-! The block decompressor's rules (40_block_decompressor.md): the four tokens and their errors, the end of the stream, the
decode stage in both modes, where a stage leaves the sequencer, and the cycle that follows a received message. -/

open Sys2Proof

namespace Sys2Proof.Machine

/-! ### What a literal run and a back-reference end in -/

theorem raises_of_takeError {o : Outcome} {s : State} {kind : ErrorKind} (h : o = .next (s.takeError kind)) :
    Raises o s kind := ⟨_, h, rfl⟩

/-- How an operation ends whose literal run of `n` bytes starts at `s`, with `ip` at its first byte (R113, R119). -/
structure LiteralEnds (n : Nat) (s : State) (o : Outcome) : Prop where
  truncated : s.c < s.ip + n → Raises o s .truncatedInput
  tooLong : s.ip + n ≤ s.c → s.l < s.op + n → Raises o s .sizeMismatch
  copied : s.ip + n ≤ s.c → s.op + n ≤ s.l → (∀ k, k < n → Readable .msg (s.ip + k) s) →
    ∃ t, o = .next t ∧ t = { s with ip := s.ip + n, op := s.op + n, seq := t.seq, dec := t.dec } ∧
      (∀ k, k < n → readByte .dec (s.op + k) t = readByte .msg (s.ip + k) s) ∧
      (∀ a, a < s.op ∨ s.op + n ≤ a → readByte .dec a t = readByte .dec a s)

/-- How an operation ends whose back-reference is checked and copied at `s`, with `ip` past the token (R115, R119). -/
structure BackRefEnds (offset n : Nat) (s : State) (o : Outcome) : Prop where
  malformed : offset = 0 ∨ s.op < offset → Raises o s .malformedStream
  tooLong : 1 ≤ offset → offset ≤ s.op → s.l < s.op + n → Raises o s .sizeMismatch
  copied : 1 ≤ offset → offset ≤ s.op → s.op + n ≤ s.l → (∀ a, s.op - offset ≤ a → a < s.op → Readable .dec a s) →
    ∃ t, o = .next t ∧ t = { s with op := s.op + n, seq := t.seq, dec := t.dec } ∧
      (∀ k, k < n → readByte .dec (s.op + k) t = readByte .dec (s.op + k - offset) t) ∧
      (∀ a, a < s.op ∨ s.op + n ≤ a → readByte .dec a t = readByte .dec a s)

theorem literalRun_ends (n : Nat) (q : SeqPhase) (s : State) :
    LiteralEnds n s ((literalRun n s).bind fun _ s' => .ok () { s' with seq := q }).finish := by
  obtain ⟨htruncated, htooLong, hcopied⟩ := literalRun_eq (litlen := n) (s := s)
  refine ⟨fun h => raises_of_takeError ?_, fun h₁ h₂ => raises_of_takeError ?_, fun h₁ h₂ hread => ?_⟩
  · rw [htruncated h]; rfl
  · rw [htooLong h₁ h₂]; rfl
  · obtain ⟨t, ht, hframe, hdata, hrest⟩ := hcopied h₁ h₂ hread
    exact ⟨{ t with seq := q }, by rw [ht]; rfl, by rw [hframe], hdata, hrest⟩

theorem backRefCopy_ends (offset n : Nat) (q : SeqPhase) (s : State) :
    BackRefEnds offset n s ((backRefCopy offset n s).bind fun _ s' => .ok () { s' with seq := q }).finish := by
  obtain ⟨hmalformed, htooLong, hcopied⟩ := backRefCopy_eq (offset := offset) (matchlen := n) (s := s)
  refine ⟨fun h => raises_of_takeError ?_, fun h₁ h₂ h₃ => raises_of_takeError ?_, fun h₁ h₂ h₃ hread => ?_⟩
  · rw [hmalformed h]; rfl
  · rw [htooLong h₁ h₂ h₃]; rfl
  · obtain ⟨t, ht, hframe, hdata, hrest⟩ := hcopied h₁ h₂ h₃ hread
    exact ⟨{ t with seq := q }, by rw [ht]; rfl, by rw [hframe], hdata, hrest⟩

/-! ### The literal tokens (R113, R114) -/

/-- Settles O5: LIT is a literal run from the byte after its token byte. -/
theorem litCopiesLiterals : Obligations.LitCopiesLiterals := by
  intro ll mm s
  have hends : LiteralEnds ll.toNat { s with ip := s.ip + 1 } (execLit ll mm s) := literalRun_ends _ _ _
  exact ⟨hends.truncated, hends.tooLong, hends.copied⟩

/-- An extension that has its last byte in the message ends inside the message. -/
theorem ExtensionAt.lt_c {a k : Nat} {e : Byte} {s : State} (h : ExtensionAt a k e s) : a + k < s.c := by
  obtain ⟨-, he, -⟩ := h
  exact readByte_lt he

/-- A whole extension makes LITX a literal run from the byte after it (R87, R114). -/
theorem execLitx_ends {mm : Nibble} {k : Nat} {e : Byte} {s : State} (h : ExtensionAt (s.ip + 1) k e s) :
    LiteralEnds (15 + extensionSum k e) { s with ip := s.ip + 2 + k } (execLitx mm s) := by
  have hk := h.lt_c
  have hrun := readExtension_run (acc := 15) (s := { s with ip := s.ip + 1 }) h (Nat.lt_sub_iff_add_lt'.2 hk)
  rw [execLitx, hrun, show s.ip + 2 + k = s.ip + 1 + k + 1 by omega]
  exact literalRun_ends _ _ _

/-- Settles O6: an extension that the message cuts off is read up to the message's end; a whole one gives the length of the
literal run. -/
theorem litxCopiesLiterals : Obligations.LitxCopiesLiterals := by
  refine fun mm s => ⟨fun hff => raises_of_takeError (o := execLitx mm s) ?_, fun k e hext => ?_⟩
  · have hcut := readExtension_cut (left := s.c - (s.ip + 1)) (acc := 15) (s := { s with ip := s.ip + 1 })
      fun j hj => hff (s.ip + 1 + j) (Nat.le_add_right _ _) (by omega)
    rw [execLitx, hcut, show max s.c (s.ip + 1) = s.ip + 1 + (s.c - (s.ip + 1)) by omega]
    rfl
  · have hends := execLitx_ends (mm := mm) hext
    exact ⟨hends.truncated, hends.tooLong, hends.copied⟩

/-! ### The back-reference tokens (R115, R116) -/

/-- Two bytes of the message are an offset, low byte first (R90). -/
theorem readOffset_of_bytes {lo hi : Byte} {s : State} (hlo : readByte .msg s.ip s = .ok lo)
    (hhi : readByte .msg (s.ip + 1) s = .ok hi) :
    readOffset s = .ok (lo.toNat + 256 * hi.toNat) { s with ip := s.ip + 2 } := by
  rw [readOffset_eq.2 lo hi (readByte_lt hhi) hlo hhi, assembleOffset_eq]

/-- With its offset in the message, REF is a back-reference from the byte after it (R115). -/
theorem execRef_ends {mm : Nibble} {lo hi : Byte} {s : State} (hlo : readByte .msg s.ip s = .ok lo)
    (hhi : readByte .msg (s.ip + 1) s = .ok hi) :
    BackRefEnds (lo.toNat + 256 * hi.toNat) (mm.toNat + 4) { s with ip := s.ip + 2 } (execRef mm s) := by
  rw [execRef, readOffset_of_bytes hlo hhi]
  exact backRefCopy_ends _ _ _ _

/-- Settles O7: REF reads its offset, or finds the message too short for it, and then is a back-reference. -/
theorem refCopiesBack : Obligations.RefCopiesBack := by
  refine fun mm s => ⟨fun hshort => raises_of_takeError (o := execRef mm s) ?_, fun lo hi hlo hhi => ?_⟩
  · rw [execRef, readOffset_eq.1 hshort]; rfl
  · have hends := execRef_ends (mm := mm) hlo hhi
    exact ⟨hends.malformed, hends.tooLong, hends.copied⟩

/-- With its offset and its extension in the message, REFX is a back-reference from the byte after them (R116). -/
theorem execRefx_ends {lo hi e : Byte} {k : Nat} {s : State} (hlo : readByte .msg s.ip s = .ok lo)
    (hhi : readByte .msg (s.ip + 1) s = .ok hi) (hext : ExtensionAt (s.ip + 2) k e s) :
    BackRefEnds (lo.toNat + 256 * hi.toNat) (15 + extensionSum k e + 4) { s with ip := s.ip + 3 + k } (execRefx s) := by
  have hk := hext.lt_c
  have hrun := readExtension_run (acc := 15) (s := { s with ip := s.ip + 2 }) hext (Nat.lt_sub_iff_add_lt'.2 hk)
  rw [execRefx, readOffset_of_bytes hlo hhi, Res.bind_ok, hrun, show s.ip + 3 + k = s.ip + 2 + k + 1 by omega]
  exact backRefCopy_ends _ _ _ _

/-- Settles O8: REFX reads its offset and its extension, and both can be cut off; then it is a back-reference. -/
theorem refxCopiesBack : Obligations.RefxCopiesBack := by
  refine fun s => ⟨fun hshort => raises_of_takeError (o := execRefx s) ?_, fun lo hi hlo hhi =>
    ⟨fun hff => raises_of_takeError (o := execRefx s) ?_, fun k e hext => ?_⟩⟩
  · rw [execRefx, readOffset_eq.1 hshort]; rfl
  · have hc : s.ip + 1 < s.c := readByte_lt hhi
    have hcut := readExtension_cut (left := s.c - (s.ip + 2)) (acc := 15) (s := { s with ip := s.ip + 2 })
      fun j hj => hff (s.ip + 2 + j) (Nat.le_add_right _ _) (by omega)
    rw [execRefx, readOffset_of_bytes hlo hhi, Res.bind_ok, hcut]
    simp only [show s.ip + 2 + (s.c - (s.ip + 2)) = s.c by omega]
    rfl
  · have hends := execRefx_ends hlo hhi hext
    exact ⟨hends.malformed, hends.tooLong, hends.copied⟩

/-! ### The end of the stream and the exact size (R117, R118) -/

theorem microStep_check {s : State} (hs : s.seq = .check) : microStep s = finishDecode s := by
  simp [microStep, fetchMicro, closeStage, hs]

/-- Settles O9: END only moves the sequencer, and the step from the check is the exact-size check. -/
theorem endChecksExactSize : Obligations.EndChecksExactSize := by
  refine fun s => ⟨rfl, fun hs => ?_⟩
  rw [step_micro (by simp [hs]), microStep_check hs]
  exact ⟨fun h => if_pos h, fun h => if_neg h⟩

/-- The replay's last check is the exact size (R118, R124). -/
theorem replayStream_length {stream : TokenStream} {l : Nat} {out : List Byte} (h : replayStream l stream = .ok out) :
    out.length = l := by
  unfold replayStream at h
  split at h
  · cases h
  · split at h
    · cases h
    · split at h
      · next hlen => cases h; exact hlen
      · cases h

/-- Settles O14: with compression the replay checks its result's length, and without it the message's length is checked. -/
theorem decodeYieldsExactCapacity : Obligations.DecodeYieldsExactCapacity := by
  refine ⟨fun _ _ _ => replayStream_length, fun format compression message l out h => ?_⟩
  cases compression with
  | true => exact replayStream_length (stream := parserOf format message) h
  | false =>
    rw [decodeMessage, if_neg Bool.false_ne_true] at h
    split at h
    · next hlen => cases h; exact hlen
    · cases h

/-! ### The decode stage (R110 to R112) -/

/-- A message of exactly `L` bytes is copied whole (R111). -/
theorem execDecodeP_copies {s : State} (hc : s.c = s.l) (hread : ∀ a, a < s.c → Readable .msg a s) :
    ∃ t, execDecodeP s = .next t ∧ contents .dec t = contents .msg s := by
  obtain ⟨bytes, hbytes⟩ := readRun_succeeds (src := .msg) (count := s.size .msg) (a := 0) (s := s) fun j hj => by
    rw [Nat.zero_add]; exact hread j hj
  obtain ⟨hlen, hmsg⟩ := contents_ok.1 hbytes
  obtain ⟨u, hu⟩ := copyRun_succeeds (src := .msg) (dst := .dec) (fromBase := 0) (toBase := 0) (count := s.l) (k := 0)
    (s := s) (by simp) fun j _ hj => .inl (by rw [Nat.zero_add]; exact hread j (by omega))
  obtain ⟨hframe, -, hcopied⟩ := copyRun_ok (.inl (by decide)) hu
  refine ⟨u.enterReconstructing, by simp [execDecodeP, hc, hu], ?_⟩
  rw [show contents .msg s = .ok bytes from hbytes]
  refine contents_ok.2 ⟨?_, fun j v hj => ?_⟩
  · rw [hlen, State.size_msg, hc, hframe]; rfl
  · have hjl : j < s.l := by
      rw [← hc, ← State.size_msg, ← hlen]
      exact (List.getElem?_eq_some_iff.1 hj).1
    have hcopy := hcopied j (Nat.zero_le _) (by omega)
    rw [Nat.zero_add, frame_readByte (sp' := .msg) hframe (by decide)] at hcopy
    rw [readByte_enterReconstructing, hcopy, hmsg j v hj]

/-- Settles O10: the length is checked first, and then the copy cannot fail. -/
theorem passThroughCopiesMessage : Obligations.PassThroughCopiesMessage := by
  refine fun s => ⟨fun hc hread => ?_, fun hc => raises_of_takeError (if_neg hc)⟩
  obtain ⟨t, ht, hcontents⟩ := execDecodeP_copies hc hread
  rcases execDecodeP_cases ht with ⟨-, hframe⟩ | ⟨hne, -⟩
  · exact ⟨t, ht, by rw [hframe], hcontents⟩
  · exact absurd hc hne

theorem DecodeEnds.imp {s : State} {P Q : Nat → Prop} {r : Except ErrorKind (List Byte)} {o : Outcome} (hPQ : ∀ ip, P ip → Q ip)
    (h : DecodeEnds s P r o) : DecodeEnds s Q r o := by
  cases r with
  | ok out =>
    obtain ⟨t, hnext, hframe, hip, hout⟩ := h
    exact ⟨t, hnext, hframe, hPQ _ hip, hout⟩
  | error kind => exact h

/-- Under SEQ16 the run of the stage ends as the replay of the parsed message does (R112, R124). -/
theorem decompressSeq16_ends {message : List Byte} {s : State} (hmsg : contents .msg s = .ok message) :
    DecodeEnds s (fun ip => ip = s.c) (replayStream s.l (parseSeq16 message)) (decompressSeq16 s) := by
  obtain ⟨hlen, hbytes⟩ := contents_ok.1 hmsg
  have hlen : message.length = s.c := hlen
  have hends := runStage_decodes message.length message [] { s with ip := 0, op := 0, seq := .token } (2 * s.c + 3)
    (Nat.le_refl _) (by omega) rfl ⟨by simpa using hlen, fun j b hj => by rw [Nat.zero_add]; exact hbytes j b hj⟩
    ⟨rfl, by simp⟩ (Nat.zero_le _)
  exact DecodeEnds.trans (u := { s with ip := 0, op := 0, seq := .token }) rfl hends

/-- `DECODE.C` ends as the function `decode` does, under every token format (R10, R110). -/
theorem execDecodeC_ends {message : List Byte} {s : State} (hmsg : contents .msg s = .ok message) :
    DecodeEnds s (fun ip => s.params.tokenFormat = .seq16 → ip = s.c)
      (decodeMessage s.params.tokenFormat true message s.l) (execDecodeC s) := by
  rw [execDecodeC, decodeMessage, if_pos rfl]
  cases hf : s.params.tokenFormat with
  | seq16 => exact (decompressSeq16_ends hmsg).imp fun _ hip _ => hip
  | other k => exact (decompressAbstract_ends (parseOther k) hmsg).imp fun _ _ hseq => by cases hseq

/-- Settles O11: both outcomes of `decode` are those of the stage. -/
theorem compressedDecodeComputesReplay : Obligations.CompressedDecodeComputesReplay := by
  intro s message hmsg
  have hends := execDecodeC_ends hmsg
  cases hr : decodeMessage s.params.tokenFormat true message s.l with
  | ok out => rw [hr] at hends; exact hends
  | error kind => rw [hr] at hends; exact hends

/-- Settles O13: the stage goes on or succeeds, with status and trace as before, or it takes one error. -/
theorem decodeStageFrame : Obligations.DecodeStageFrame := by
  intro i s t hi h
  have hframe : DecodeFrame s t := by
    rcases hi with rfl | rfl
    · exact execDecodeC_frame h
    · exact execDecodeP_frame h
  cases hframe with
  | next h => exact ⟨by rw [h], .inl ⟨(congrArg State.status h :), (congrArg State.trace h :)⟩⟩
  | success h => exact ⟨by rw [h], .inl ⟨(congrArg State.status h :), (congrArg State.trace h :)⟩⟩
  | error kind h =>
    exact ⟨by rw [h], .inr ⟨kind, (congrArg State.status h :), (congrArg State.fsm h :), (congrArg State.trace h :)⟩⟩

/-! ### Where the sequencer stands after an operation (log entries 8, 9) -/

/-- A next state has the sequencer at `q`, or idle with an error taken. -/
def MovesTo (q : SeqPhase) (o : Outcome) : Prop :=
  ∀ t, o = .next t → t.seq = q ∨ (t.seq = .idle ∧ ∃ kind, t.status = .terminated kind)

/-- A part of an operation goes on with the rest, or raises an error that is taken. -/
theorem MovesTo.bind {α : Type} {q : SeqPhase} {next : α → State → Res Unit} (hnext : ∀ v s, MovesTo q (next v s).finish)
    (r : Res α) : MovesTo q (r.bind next).finish := by
  intro t h
  cases r with
  | ok v s => exact hnext v s t h
  | raise kind s => cases h; exact .inr ⟨rfl, kind, rfl⟩
  | fault f => cases h

/-- The last part of a token moves the sequencer, or raises an error that is taken. -/
theorem MovesTo.last (q : SeqPhase) (r : Res Unit) :
    MovesTo q (r.bind fun _ s' => .ok () { s' with seq := q }).finish := by
  refine .bind (fun _ s t h => ?_) r
  cases h
  exact .inl rfl

theorem execLit_movesTo (ll mm : Nibble) (s : State) : MovesTo (.backRef (tokenByte ll mm)) (execLit ll mm s) :=
  .last _ _

theorem execLitx_movesTo (mm : Nibble) (s : State) : MovesTo (.backRef (tokenByte 15 mm)) (execLitx mm s) :=
  .bind (fun _ _ => .last _ _) _

theorem execRef_movesTo (mm : Nibble) (s : State) : MovesTo .token (execRef mm s) :=
  .bind (fun _ _ => .last _ _) _

theorem execRefx_movesTo (s : State) : MovesTo .token (execRefx s) :=
  .bind (fun _ _ => .bind (fun _ _ => .last _ _) _) _

/-- The loop of R145 ends idle, with the index at `N`. -/
theorem runStage_delta_ends {fuel : Nat} {s t : State} (hs : s.seq = .delta) (hi : s.i ≤ s.n) (hf : s.n - s.i < fuel)
    (h : runStage fuel s = .next t) : t.seq = .idle ∧ t.i = s.n := by
  induction fuel generalizing s with
  | zero => exact absurd hf (Nat.not_lt_zero _)
  | succ fuel ih =>
    obtain ⟨u, hu, h⟩ := runStage_succ_next (by simp [hs]) h
    rcases microStep_delta_next hs hu with ⟨hlt, sign, -, hrun⟩ | ⟨hge, rfl⟩
    · have hframe := runMicro_sign_frame hrun
      have hun : u.n = s.n := (congrArg State.n hframe :)
      have hui : u.i = s.i + 1 := (congrArg State.i hframe :)
      rw [← hun]
      exact ih ((congrArg State.seq hframe :).trans hs) (by omega) (by omega) h
    · cases (runStage_idle _ _ rfl).symm.trans h
      exact ⟨rfl, Nat.le_antisymm hi hge⟩

/-- The loop of R146 moves the index on by one for each byte. -/
theorem replaceRun_index {count : Nat} {s t : State} (h : replaceRun count s = .ok t) : t.i = s.i + count := by
  induction count generalizing s with
  | zero => cases h; rfl
  | succ count ih =>
    simp only [replaceRun] at h
    split at h
    · cases h
    · split at h
      · cases h
      · next u hw =>
        have hui : u.i = s.i := by rw [writeByte_frame hw]; exact State.setMem_i _ _ _
        have hstep : t.i = u.i + 1 + count := ih h
        omega

theorem execReconR_index {s t : State} (h : execReconR s = .next t) : t.i = s.n := by
  unfold execReconR at h
  cases hr : replaceRun s.n { s with i := 0 } with
  | ok u =>
    rw [hr] at h
    cases h
    exact (replaceRun_index hr).trans (Nat.zero_add _)
  | error f => rw [hr] at h; cases h

/-- Settles O33: a token ends in the move of the sequencer unless a part of it raises; the other operations end the stage. -/
theorem stageMovesOn : Obligations.StageMovesOn := by
  refine fun s t => ⟨fun ll mm => execLit_movesTo ll mm s t, fun mm => execLitx_movesTo mm s t,
    fun mm => execRef_movesTo mm s t, execRefx_movesTo s t, fun h => ?_, fun h => ?_⟩
  · rcases execDecodeP_cases h with ⟨-, h⟩ | ⟨-, h⟩ <;> exact (congrArg State.seq h :)
  · rcases h with h | h
    · exact runStage_delta_ends (s := { s with i := 0, seq := .delta }) rfl (Nat.zero_le _) (Nat.lt_succ_self _) h
    · exact ⟨(congrArg State.seq (execReconR_frame h) :), execReconR_index h⟩

/-! ### The cycle after a received message (R123, R151, R248) -/

/-- A whole decode stage, in either mode, ended in the reconstruct stage or in one error. -/
inductive DecodeDone (s t : State) : Prop where
  | success (h : t = { s with ip := t.ip, op := t.op, seq := .idle, dec := t.dec, fsm := .reconstructing })
  | error (kind : ErrorKind)
      (h : t = { s with ip := t.ip, op := t.op, seq := .idle, dec := t.dec, status := .terminated kind,
                        trace := s.trace ++ [.fail kind] })

theorem DecodeEnds.done {s t : State} {P : Nat → Prop} {r : Except ErrorKind (List Byte)} (h : DecodeEnds s P r (.next t)) :
    DecodeDone s t := by
  cases r with
  | ok out =>
    obtain ⟨_, hnext, hframe, -⟩ := h
    cases hnext
    exact .success (by rw [hframe])
  | error kind =>
    obtain ⟨_, hnext, hframe⟩ := h
    cases hnext
    exact .error kind hframe

theorem execDecodeP_done {s t : State} (h : execDecodeP s = .next t) : DecodeDone s t := by
  rcases execDecodeP_cases h with ⟨-, h⟩ | ⟨-, h⟩
  · exact .success (by rw [h])
  · exact .error _ (by rw [h]; rfl)

/-- The message of a cycle has a value at every address (R30). -/
theorem Inv.contents_msg {s : State} (h : Inv s) (ha : s.status = .active) (hf : s.fsm = .decompressing) :
    ∃ message, contents .msg s = .ok message :=
  readRun_succeeds fun j hj => by
    rw [Nat.zero_add]
    exact (h.message ha hf).2 j hj

/-- The decoded buffer of a cycle has a value at every address (R121). -/
theorem Inv.contents_dec {s : State} (h : Inv s) (ha : s.status = .active) (hf : s.fsm = .reconstructing) :
    ∃ decoded, contents .dec s = .ok decoded :=
  readRun_succeeds fun j hj => by
    rw [Nat.zero_add]
    exact h.decoded ha hf j hj

/-- The step of `Decompressing` (R111, R112, R171) runs the whole stage. -/
theorem decode_step {s : State} (hinv : Inv s) (hs : s.seq = .idle) (ha : s.status = .active) (hf : s.fsm = .decompressing)
    (hq : s.inputs = [] ∨ ∃ rest, s.inputs = .quiet :: rest) :
    ∃ t, step s = .next t ∧ Inv t ∧ DecodeDone { s with inputs := s.inputs.tail } t := by
  obtain ⟨t, ht, hinv'⟩ := stepKeepsInv s hinv
  refine ⟨t, ht, hinv', ?_⟩
  rw [step_quiet hs hq, show selectInternal s = some (.decodeMode s.cfg.compression s.cfg.delta) by
    simp [selectInternal, ha, hf]] at ht
  cases hc : s.cfg.compression with
  | true =>
    obtain ⟨message, hmsg⟩ := (hinv.with_inputs s.inputs.tail).contents_msg ha hf
    rw [hc] at ht
    have ht : execDecodeC { s with inputs := s.inputs.tail } = .next t := ht
    have hends := execDecodeC_ends hmsg
    rw [ht] at hends
    exact hends.done
  | false =>
    rw [hc] at ht
    exact execDecodeP_done ht

theorem runSteps_succ {k : Nat} {s t : State} (h : step s = .next t) : runSteps (k + 1) s = runSteps k t := by
  rw [runSteps, h]

/-- A session that has ended waits for as many steps as no event comes. -/
theorem runSteps_waiting {s : State} (hs : s.seq = .idle) (ha : s.status ≠ .active) (hi : s.inputs = []) (k : Nat) :
    runSteps k s = .next s := by
  induction k with
  | zero => rfl
  | succ k ih =>
    have hstep : step s = .next s := by
      rw [wait_step s hs ha (.inl hi), hi, List.tail_nil, ← hi]
    rw [runSteps_succ hstep, ih]

/-- From the reconstruct stage on, three steps reconstruct the frame, present it and acknowledge it. -/
theorem runSteps_reconstructing {s : State} (hinv : Inv s) (hs : s.seq = .idle) (ha : s.status = .active)
    (hf : s.fsm = .reconstructing) (hi : s.inputs = []) :
    ∃ t, runSteps 3 s = .next t ∧ t.seq = .idle ∧ t.awaitingFrame = true ∧
      ∃ frame, t.trace = s.trace ++ [.present s.cfg.w s.cfg.h frame, .ack s.params.ackSentinel] := by
  obtain ⟨old, hold⟩ := contents_ref s
  obtain ⟨decoded, hdecoded⟩ := hinv.contents_dec ha hf
  obtain ⟨t, ht, hframe, hnew⟩ := recon_step s old decoded hinv hold hdecoded hs ha hf (.inl hi)
  rw [runSteps_succ ht]
  have hts : t.seq = .idle := (congrArg State.seq hframe :).trans hs
  have hta : t.status = .active := (congrArg State.status hframe :).trans ha
  have htf : t.fsm = .presenting := (congrArg State.fsm hframe :)
  have htp : t.presented = false := (congrArg State.presented hframe :)
  have hti : t.inputs = [] := (congrArg State.inputs hframe :).trans (by rw [hi]; rfl)
  refine ⟨_, (runSteps_succ (present_step t _ hnew hts hta htf htp (.inl hti))).trans
    (runSteps_succ (ack_step _ hts hta htf rfl (.inl (by simp only [hti, List.tail_nil])))), hts, decide_eq_true ⟨hta, rfl⟩,
    reconstruct s.cfg.delta s.n old decoded, ?_⟩
  rw [hframe]
  exact List.append_assoc _ _ _

/-- Settles O49: the first step decodes; on an error the ended session waits, and otherwise the frame follows. -/
theorem cycleEndsInAckOrAbort : Obligations.CycleEndsInAckOrAbort := by
  intro s hinv hs ha hf hi
  obtain ⟨t, ht, htinv, hdone⟩ := decode_step hinv hs ha hf (.inl hi)
  rw [runSteps_succ ht]
  have htail : s.inputs.tail = [] := by rw [hi]; rfl
  cases hdone with
  | success hframe =>
    have hti : t.inputs = [] := (congrArg State.inputs hframe :).trans htail
    obtain ⟨u, hu, hus, hwait, frame, htrace⟩ := runSteps_reconstructing htinv (congrArg State.seq hframe :)
      ((congrArg State.status hframe :).trans ha) (congrArg State.fsm hframe :) hti
    refine ⟨u, hu, hus, .inl ⟨hwait, frame, ?_⟩⟩
    rw [htrace, hframe]
  | error kind hframe =>
    have hti : t.inputs = [] := (congrArg State.inputs hframe :).trans htail
    have hts : t.seq = .idle := (congrArg State.seq hframe :)
    have htstatus : t.status = .terminated kind := (congrArg State.status hframe :)
    exact ⟨t, runSteps_waiting hts (by simp [htstatus]) hti 3, hts,
      .inr ⟨kind, htstatus, (congrArg State.trace hframe :)⟩⟩

end Sys2Proof.Machine
end

section
/-! The delta reconstructor's rules (41_delta_reconstructor.md): the per-byte operations, the two reconstruct stages, and that
reconstruction inverts the encoding of R149. -/

open Sys2Proof

namespace Sys2Proof.Machine

/-! ### One byte (R143, R144) -/

/-- Settles O18: ADDB is the pass of the loop for a clear sign bit, and the sum of two bytes is taken modulo 256. -/
theorem addbAddsModulo : Obligations.AddbAddsModulo := by
  intro i s r d hr hd
  obtain ⟨t, ht, hframe, hbyte, hrest⟩ := runMicro_sign (sign := false) hr hd
  exact ⟨t, r + d, ht, hframe, hbyte, BitVec.toNat_add r d, hrest⟩

/-- Settles O19: SUBB is the pass of the loop for a set sign bit, and the difference of two bytes is taken modulo 256. -/
theorem subbSubtractsModulo : Obligations.SubbSubtractsModulo := by
  intro i s r d hr hd
  obtain ⟨t, ht, hframe, hbyte, hrest⟩ := runMicro_sign (sign := true) hr hd
  have hmod : (r - d).toNat = (r.toNat + 256 - d.toNat) % 256 := by
    have hd256 : d.toNat < 256 := d.isLt
    rw [BitVec.toNat_sub]
    omega
  exact ⟨t, r - d, ht, hframe, hbyte, hmod, hrest⟩

/-! ### The stages (R145, R146) -/

/-- Settles O20: RECON.D is the loop of R145 run from index 0. -/
theorem deltaReconstructsEveryByte : Obligations.DeltaReconstructsEveryByte := by
  intro s hread
  obtain ⟨t, ht, hframe, -, hbytes⟩ := runStage_delta (fuel := s.n + 1) (s := { s with i := 0, seq := .delta }) rfl
    (Nat.zero_le _) (Nat.lt_succ_self _) hread
  exact ⟨t, ht, by rw [hframe], fun j r d b hj => hbytes j r d b (Nat.zero_le _) hj⟩

/-- Settles O21: RECON.R is the loop of R146 run from index 0, and then the stage change. -/
theorem replaceCopiesDecoded : Obligations.ReplaceCopiesDecoded := by
  intro s hread
  obtain ⟨u, hu, hframe, -, hcopied⟩ := replaceRun_eq (count := s.n) (s := { s with i := 0 }) (Nat.zero_add _) hread
  have hnext : execReconR s = .next u.enterPresenting := by
    rw [execReconR, hu]
    rfl
  refine ⟨u.enterPresenting, hnext, by rw [hframe]; rfl, fun j hj => ?_⟩
  rw [readByte_enterPresenting]
  exact hcopied j (Nat.zero_le _) hj

/-! ### The round trip (R149) -/

/-- The delta byte that turns a frame byte into another in the direction of a sign bit (R149). -/
def encodeByte (sign : Bool) (old new : Byte) : Byte := if sign then sub8 old new else sub8 new old

/-- Reconstructing a byte inverts encoding it, in either direction. -/
theorem deltaByte_encodeByte (sign : Bool) (old new : Byte) : deltaByte sign old (encodeByte sign old new) = new := by
  cases sign with
  | false => exact add_sub_cancel old new
  | true => exact sub_sub_cancel old new

/-- Below `n` the encoding holds the delta bytes. -/
theorem encodeDelta_delta {n i : Nat} {old frame bitmap : List Byte} (hi : i < n) (hold : i < old.length)
    (hframe : i < frame.length) (hbit : i / 8 < bitmap.length) :
    (encodeDelta n old frame bitmap)[i]? = some (encodeByte (bitmap[i / 8].getLsbD (i % 8)) old[i] frame[i]) := by
  rw [encodeDelta, List.getElem?_append_left (by simpa using hi), List.getElem?_map, List.getElem?_range hi]
  simp only [Option.map_some, List.getD_eq_getElem, hold, hframe, hbit, signOf_eq, encodeByte]

/-- From `n` on the encoding holds the bitmap. -/
theorem encodeDelta_bitmap (n k : Nat) (old frame bitmap : List Byte) :
    (encodeDelta n old frame bitmap)[n + k]? = bitmap[k]? := by
  rw [encodeDelta, List.getElem?_append_right (by simp)]
  simp

theorem encodeDelta_length (n : Nat) (old frame bitmap : List Byte) :
    (encodeDelta n old frame bitmap).length = n + bitmap.length := by
  simp [encodeDelta]

/-- Every address of a space whose contents are known is readable. -/
theorem readable_of_contents {sp : Space} {a : Nat} {s : State} {bytes : List Byte} (h : contents sp s = .ok bytes)
    (ha : a < bytes.length) : Readable sp a s :=
  ⟨bytes[a], (contents_ok.1 h).2 a _ (List.getElem?_eq_getElem ha)⟩

/-- Settles O23: the bytes that RECON.D reads are the parts of the encoding, and each pass inverts the encoding of its byte. -/
theorem roundTripReproducesFrame : Obligations.RoundTripReproducesFrame := by
  intro s old frame bitmap hold hframeLen hbitmapLen hdec
  obtain ⟨holdLen, holdBytes⟩ := contents_ok.1 hold
  obtain ⟨-, hdecBytes⟩ := contents_ok.1 hdec
  obtain ⟨t, ht, htframe, hbytes⟩ := deltaReconstructsEveryByte s fun a ha =>
    readable_of_contents hdec (by rwa [encodeDelta_length, hbitmapLen])
  have htn : t.n = s.n := (congrArg State.n htframe :)
  refine ⟨t, ht, contents_ok.2 ⟨hframeLen.trans htn.symm, fun j v hv => ?_⟩⟩
  obtain ⟨hjframe, rfl⟩ := List.getElem?_eq_some_iff.1 hv
  have hj : j < s.n := hframeLen ▸ hjframe
  have hjold : j < old.length := holdLen ▸ hj
  have hjbit : j / 8 < bitmap.length := by rw [hbitmapLen, bitmapBytes]; omega
  have hr := holdBytes j _ (List.getElem?_eq_getElem hjold)
  have hd := hdecBytes j _ (encodeDelta_delta hj hjold hjframe hjbit)
  have hb := hdecBytes (s.n + j / 8) _ ((encodeDelta_bitmap ..).trans (List.getElem?_eq_getElem hjbit))
  exact (hbytes j _ _ _ hj hr hd hb).trans (congrArg Except.ok (deltaByte_encodeByte _ _ _))

end Sys2Proof.Machine
end

section
/-! The controller's rules (42_frame_store_controller.md): its operations, the operation that an event or the state machine selects
between stages, and the whole cycle as one step of the atomic view. -/

open Sys2Proof

namespace Sys2Proof.Machine

/-! ### The controller's operations (R162, R163, R170, R173, R174) -/

/-- Settles O24: the session is `startSession`, whose `REF` lists no byte and so reads as `REF_INIT` everywhere. -/
theorem startOpensSession : Obligations.StartOpensSession := by
  intro cfg s hw hh hl
  exact ⟨startSession cfg s, execStart_of_acceptable (acceptable_iff.2 ⟨hw, hh, hl⟩), rfl, rfl, rfl, rfl, rfl, rfl, rfl,
    fun _ ha => readByte_ok.2 ⟨ha, rfl⟩, rfl⟩

/-- Settles O25: each of the three causes fails one condition of acceptance, and the refusal takes the error. -/
theorem startRefusesConfiguration : Obligations.StartRefusesConfiguration := by
  intro cfg s hcause
  rcases execStart_cases (cfg := cfg) (s := s) with ⟨hacc, -⟩ | ⟨-, hrefused⟩
  · obtain ⟨hw, hh, hl⟩ := acceptable_iff.1 hacc
    rcases hcause with hw' | hh' | hl'
    · exact absurd hw' hw
    · exact absurd hh' hh
    · exact absurd hl (Nat.not_le.2 hl')
  · exact hrefused

theorem fitsMessage_iff {length : Nat} {p : Params} :
    fitsMessage length p = true ↔ ∀ bound, p.maxMessageBytes = some bound → length ≤ bound := by
  unfold fitsMessage
  cases p.maxMessageBytes <;> simp

/-- A latched message is the contents of `MSG` (R30, R170). -/
theorem contents_msg_of_latched {bytes : List Byte} {s : State} (hmsg : s.msg = Memory.ofBytes 0 bytes)
    (hc : s.c = bytes.length) : contents .msg s = .ok bytes := by
  refine contents_ok.2 ⟨hc.symm, fun j v hj => readByte_ok.2 ⟨?_, ?_⟩⟩
  · rw [State.size_msg, hc]
    exact (List.getElem?_eq_some_iff.1 hj).1
  · rw [State.mem_msg, hmsg]
    exact (Memory.read_ofBytes bytes j).trans hj

theorem State.awaitingFrame_iff {s : State} : s.awaitingFrame = true ↔ s.status = .active ∧ s.fsm = .awaitingFrame :=
  decide_eq_true_iff

theorem State.awaitingFrame_eq_false_of_fsm {s : State} (hf : s.fsm ≠ .awaitingFrame) : s.awaitingFrame = false :=
  decide_eq_false fun h => hf h.2

theorem State.awaitingFrame_eq_false_of_status {s : State} (ha : s.status ≠ .active) : s.awaitingFrame = false :=
  decide_eq_false fun h => ha h.1

/-- Settles O27: the two clauses are the two outcomes of RECV, by whether the length is within the bound. -/
theorem recvLatchesMessage : Obligations.RecvLatchesMessage := by
  intro bytes s
  rcases execRecv_cases (bytes := bytes) (s := s) with ⟨hfits, hlatched⟩ | ⟨hlong, hrefused⟩
  · refine ⟨fun _ => ⟨_, hlatched, rfl, contents_msg_of_latched rfl rfl, State.awaitingFrame_eq_false_of_fsm (by simp)⟩,
      fun bound hbound hlt => ?_⟩
    exact absurd (fitsMessage_iff.1 hfits bound hbound) (Nat.not_le.2 hlt)
  · refine ⟨fun hbounds => ?_, fun _ _ _ => raises_of_takeError hrefused⟩
    rw [fitsMessage_iff.2 hbounds] at hlong
    cases hlong

/-- Settles O29: ACK has one outcome, and with it the block awaits the next frame of an active session. -/
theorem ackReturnsToWaiting : Obligations.AckReturnsToWaiting := fun _ =>
  ⟨_, rfl, rfl, fun ha => State.awaitingFrame_iff.2 ⟨ha, rfl⟩⟩

/-- Settles O30: ABORT is taking the error. -/
theorem abortTerminatesSession : Obligations.AbortTerminatesSession := fun _ _ => rfl

/-! ### The internal steps (R161, R171) -/

section
variable {s : State}

theorem selectInternal_decompressing (ha : s.status = .active) (hf : s.fsm = .decompressing) :
    selectInternal s = some (.decodeMode s.cfg.compression s.cfg.delta) := by
  simp only [selectInternal, ha, hf, if_true]

theorem selectInternal_reconstructing (ha : s.status = .active) (hf : s.fsm = .reconstructing) :
    selectInternal s = some (.reconMode s.cfg.compression s.cfg.delta) := by
  simp only [selectInternal, ha, hf, if_true]

theorem step_of_selectInternal {sel : Selector} (hs : s.seq = .idle) (hq : s.inputs = [] ∨ ∃ rest, s.inputs = .quiet :: rest)
    (hsel : selectInternal s = some sel) : step s = exec (decode sel) { s with inputs := s.inputs.tail } := by
  rw [step_quiet hs hq, hsel]

end

/-- Settles O35: the state machine and the flags select one row of the table, and the step runs it. -/
theorem stepRunsSelectedStage : Obligations.StepRunsSelectedStage := by
  intro s hs ha hq
  refine ⟨fun hf => ?_, fun hf => ?_, fun hf hp => ?_, fun hf hp => ?_⟩
  · exact step_of_selectInternal hs hq (selectInternal_decompressing ha hf)
  · exact step_of_selectInternal hs hq (selectInternal_reconstructing ha hf)
  · exact step_of_selectInternal (sel := .presenting) hs hq (by simp [selectInternal, ha, hf, hp])
  · exact step_of_selectInternal (sel := .presented) hs hq (by simp [selectInternal, ha, hf, hp])

/-! ### The events (R161, R164, R175 to R178) -/

section
variable {s : State} {e : InEvent} {rest : List Slot}

theorem step_of_selectEvent {sel : Selector} (hs : s.seq = .idle) (hi : s.inputs = .event e :: rest)
    (hsel : selectEvent e s = some sel) : step s = exec (decode sel) { s with inputs := rest } := by
  rw [step_event hs hi, hsel]

/-- An event that selects an error ends the session with it and changes nothing else but the schedule (R174). -/
theorem step_event_aborts {kind : ErrorKind} (hs : s.seq = .idle) (hi : s.inputs = .event e :: rest)
    (hsel : selectEvent e s = some (.error kind)) :
    ∃ t, step s = .next t ∧
      t = { s with status := .terminated kind, trace := s.trace ++ [.fail kind], inputs := t.inputs } := by
  refine ⟨_, step_of_selectEvent hs hi hsel, ?_⟩
  simp only [State.takeError, hs]

/-- An event that selects nothing changes nothing but the schedule (R178, R200). -/
theorem step_event_ignored (hs : s.seq = .idle) (hi : s.inputs = .event e :: rest) (hsel : selectEvent e s = none) :
    ∃ t, step s = .next t ∧ t = { s with inputs := t.inputs } :=
  ⟨{ s with inputs := rest }, by rw [step_event hs hi, hsel], rfl⟩

/-- Outside an active session only a session start selects an operation (R164, R178). -/
theorem selectEvent_inactive (ha : s.status ≠ .active) (he : ∀ cfg, e ≠ .sessionStart cfg) : selectEvent e s = none := by
  have hw := State.awaitingFrame_eq_false_of_status ha
  cases e with
  | sessionStart cfg => exact absurd rfl (he cfg)
  | message bytes => simp [selectEvent, hw, ha]
  | channelClosed => simp [selectEvent, ha]
  | timeoutExpired => simp [selectEvent, hw]

end

/-- Settles O36: a session start selects START whatever the state, and a message RECV while one is awaited. -/
theorem stepAcceptsSessionStart : Obligations.StepAcceptsSessionStart := fun _ _ hs =>
  ⟨fun _ hi => step_of_selectEvent hs hi rfl, fun _ hi hw => step_of_selectEvent hs hi (if_pos hw)⟩

/-- Settles O37: a message to an active session that awaits none selects the violation. -/
theorem earlyMessageViolatesProtocol : Obligations.EarlyMessageViolatesProtocol := by
  intro s bytes rest hs ha hf hi
  exact step_event_aborts hs hi (by simp [selectEvent, State.awaitingFrame_eq_false_of_fsm hf, ha])

/-- Settles O38: whether the block waits or not, the closing selects its error in an active session. -/
theorem closedChannelTerminates : Obligations.ClosedChannelTerminates := fun _ _ hs ha hi =>
  step_event_aborts hs hi (if_pos ha)

/-- Settles O39: a timeout selects its error exactly where a frame is awaited. -/
theorem timeoutOnlyWhileWaiting : Obligations.TimeoutOnlyWhileWaiting := by
  intro s rest hs ha hi
  refine ⟨fun hf => ?_, fun hf => ?_⟩
  · exact step_event_aborts hs hi (if_pos (State.awaitingFrame_iff.2 ⟨ha, hf⟩))
  · exact step_event_ignored hs hi (by simp [selectEvent, State.awaitingFrame_eq_false_of_fsm hf])

/-- Settles O40: without an active session such an event selects nothing. -/
theorem deadSessionIgnoresEvents : Obligations.DeadSessionIgnoresEvents := fun _ _ _ hs ha he hi =>
  step_event_ignored hs hi (selectEvent_inactive ha he)

/-! ### The cycle as one step of the atomic view (R180) -/

/-- How the decode stage answers in either mode: `DEC` holds the decoded bytes and the reconstruct stage is next (R171), or the
error has ended the session (R174). Where the pointers stand afterwards is left open (R27). -/
def DecodeAnswers (s : State) (r : Except ErrorKind (List Byte)) (o : Outcome) : Prop :=
  match r with
  | .ok decoded => ∃ t, o = .next t ∧
      t = { s with ip := t.ip, op := t.op, seq := .idle, dec := t.dec, fsm := .reconstructing } ∧ contents .dec t = .ok decoded
  | .error kind => ∃ t, o = .next t ∧
      t = { s with ip := t.ip, op := t.op, seq := .idle, dec := t.dec, status := .terminated kind,
                   trace := s.trace ++ [.fail kind] }

theorem DecodeEnds.answers {s : State} {P : Nat → Prop} {r : Except ErrorKind (List Byte)} {o : Outcome}
    (h : DecodeEnds s P r o) : DecodeAnswers s r o := by
  cases r with
  | ok decoded =>
    obtain ⟨t, hnext, hframe, -, hdec⟩ := h
    exact ⟨t, hnext, by rw [hframe], hdec⟩
  | error kind =>
    obtain ⟨t, hnext, hframe⟩ := h
    exact ⟨t, hnext, hframe⟩

/-- `DECODE.P` answers as the function `decode` does without compression (R111). -/
theorem execDecodeP_answers {message : List Byte} {s : State} (format : TokenFormat) (hmsg : contents .msg s = .ok message) :
    DecodeAnswers s (decodeMessage format false message s.l) (execDecodeP s) := by
  obtain ⟨hlen, -⟩ := contents_ok.1 hmsg
  have hlen : message.length = s.c := hlen
  rw [decodeMessage, if_neg Bool.false_ne_true, hlen]
  by_cases hc : s.c = s.l
  · obtain ⟨t, ht, hdec⟩ := execDecodeP_copies hc fun a ha => readable_of_contents hmsg (hlen ▸ ha)
    rw [if_pos hc]
    rcases execDecodeP_cases ht with ⟨-, hframe⟩ | ⟨hne, -⟩
    · exact ⟨t, ht, by rw [hframe], hdec.trans hmsg⟩
    · exact absurd hc hne
  · rw [if_neg hc]
    exact ⟨_, if_neg hc, rfl⟩

/-- The step of `Decompressing` (R110, R171) answers as the function `decode` does, in the mode of the session. -/
theorem decode_step_answers {message : List Byte} {s : State} (hs : s.seq = .idle) (ha : s.status = .active)
    (hf : s.fsm = .decompressing) (hq : s.inputs = [] ∨ ∃ rest, s.inputs = .quiet :: rest)
    (hmsg : contents .msg s = .ok message) :
    DecodeAnswers { s with inputs := s.inputs.tail } (decodeMessage s.params.tokenFormat s.cfg.compression message s.l)
      (step s) := by
  have hmsg' : contents .msg { s with inputs := s.inputs.tail } = .ok message := by
    rw [← hmsg]
    exact contents_congr rfl rfl
  rw [step_of_selectInternal hs hq (selectInternal_decompressing ha hf)]
  cases s.cfg.compression with
  | true => exact (execDecodeC_ends hmsg').answers
  | false => exact execDecodeP_answers _ hmsg'

/-- From the presentation on, two steps without an event present the frame and acknowledge it (R172, R173). -/
theorem runSteps_presenting {s : State} {frame : List Byte} {rest : List Slot} (href : contents .ref s = .ok frame)
    (hs : s.seq = .idle) (ha : s.status = .active) (hf : s.fsm = .presenting) (hp : s.presented = false)
    (hi : s.inputs = .quiet :: .quiet :: rest) :
    runSteps 2 s = .next { s with fsm := .awaitingFrame, presented := true, inputs := rest,
                                  trace := s.trace ++ lockStepOutputs s [frame] } := by
  have htail : s.inputs.tail = .quiet :: rest := congrArg List.tail hi
  have hpresent := present_step s frame href hs ha hf hp (.inr ⟨_, hi⟩)
  rw [htail] at hpresent
  refine ((runSteps_succ hpresent).trans (runSteps_succ (ack_step _ hs ha hf rfl (.inr ⟨rest, rfl⟩)))).trans ?_
  simp only [List.append_assoc]
  rfl

/-- From the reconstruct stage on, three steps without an event reconstruct the frame, present it and acknowledge it. -/
theorem runSteps_frame {s : State} {old decoded : List Byte} {rest : List Slot} (hinv : Inv s)
    (hold : contents .ref s = .ok old) (hdec : contents .dec s = .ok decoded) (hs : s.seq = .idle) (ha : s.status = .active)
    (hf : s.fsm = .reconstructing) (hi : s.inputs = .quiet :: .quiet :: .quiet :: rest) :
    ∃ t, runSteps 3 s = .next t ∧
      t = { s with i := t.i, fsm := .awaitingFrame, presented := true, ref := t.ref, inputs := rest,
                   trace := s.trace ++ lockStepOutputs s [reconstruct s.cfg.delta s.n old decoded] } ∧
      contents .ref t = .ok (reconstruct s.cfg.delta s.n old decoded) := by
  obtain ⟨t, ht, hframe, hnew⟩ := recon_step s old decoded hinv hold hdec hs ha hf (.inr ⟨_, hi⟩)
  have hpresent := runSteps_presenting (rest := rest) hnew ((congrArg State.seq hframe :).trans hs)
    ((congrArg State.status hframe :).trans ha) (congrArg State.fsm hframe :) (congrArg State.presented hframe :)
    ((congrArg State.inputs hframe :).trans (congrArg List.tail hi))
  refine ⟨_, (runSteps_succ ht).trans hpresent, ?_, ?_⟩
  · rw [hframe]
    rfl
  · rw [← hnew]
    exact contents_congr rfl rfl

/-- The state with a message latched (R170), and what is left of the schedule. -/
def State.latch (s : State) (message : List Byte) (rest : List Slot) : State :=
  { s with inputs := rest, msg := Memory.ofBytes 0 message, c := message.length, fsm := .decompressing }

theorem runSteps_one (s : State) : runSteps 1 s = step s := by
  rw [runSteps]
  cases step s <;> rfl

/-- Two steps receive a message and decode it, with the answer of the function `decode` (R110, R170). -/
theorem runSteps_decode {s : State} {message : List Byte} {rest : List Slot} (hs : s.seq = .idle)
    (hw : s.awaitingFrame = true) (hfit : fitsMessage message.length s.params = true)
    (hi : s.inputs = .event (.message message) :: .quiet :: rest) :
    DecodeAnswers (s.latch message rest) (decodeMessage s.params.tokenFormat s.cfg.compression message s.l) (runSteps 2 s) := by
  have hrecv : step s = .next (s.latch message (.quiet :: rest)) := recv_step s message _ hs hw hfit hi
  rw [runSteps_succ hrecv, runSteps_one]
  exact decode_step_answers (s := s.latch message (.quiet :: rest)) hs (State.awaitingFrame_iff.1 hw).1 rfl (.inr ⟨_, rfl⟩)
    (contents_msg_of_latched rfl rfl)

/-- A run of steps keeps the invariant. -/
theorem runSteps_inv {k : Nat} {s t : State} (hinv : Inv s) (h : runSteps k s = .next t) : Inv t := by
  induction k generalizing s with
  | zero => cases h; exact hinv
  | succ k ih =>
    obtain ⟨u, hu, huinv⟩ := stepKeepsInv s hinv
    exact ih huinv ((runSteps_succ hu).symm.trans h)

/-- Settles O50: RECV and the decode stage answer as `decode` does; an error has ended the session, and otherwise the frame
follows. -/
theorem cycleMatchesAtomicView : Obligations.CycleMatchesAtomicView := by
  intro s message rest old hinv hs hw hfit hi hold
  obtain ⟨ha, hf⟩ := State.awaitingFrame_iff.1 hw
  have hanswers := runSteps_decode hs hw hfit hi
  cases hdecode : decodeMessage s.params.tokenFormat s.cfg.compression message s.l with
  | error kind =>
    rw [hdecode] at hanswers
    obtain ⟨t, ht, htframe⟩ := hanswers
    exact ⟨t, ht, (congrArg State.status htframe :), (congrArg State.trace htframe :), (congrArg State.ref htframe :)⟩
  | ok decoded =>
    rw [hdecode] at hanswers
    obtain ⟨t, ht, htframe, htdec⟩ := hanswers
    have htref : contents .ref t = .ok old := by
      rw [← hold]
      exact contents_congr (congrArg State.n htframe :) (congrArg State.ref htframe :)
    obtain ⟨u, hu, huframe, huref⟩ := runSteps_frame (runSteps_inv hinv ht) htref htdec (congrArg State.seq htframe :)
      ((congrArg State.status htframe :).trans ha) (congrArg State.fsm htframe :) (congrArg State.inputs htframe :)
    rw [show t.cfg = s.cfg from (congrArg State.cfg htframe :), show t.n = s.n from (congrArg State.n htframe :)] at huref
    refine ⟨u, (runSteps_add 2 3 s t ht).trans hu, ?_, huref⟩
    rw [huframe, htframe, hf, hs]
    rfl

/-! ### Lock-step (R66, R179) -/

theorem lockStepOutputs_cons (s : State) (frame : List Byte) (frames : List (List Byte)) :
    lockStepOutputs s (frame :: frames) = lockStepOutputs s [frame] ++ lockStepOutputs s frames := by
  simp [lockStepOutputs]

/-- The outputs of a frame depend on the session's configuration and on the parameters alone. -/
theorem lockStepOutputs_congr {s t : State} (hp : t.params = s.params) (hc : t.cfg = s.cfg) :
    lockStepOutputs t = lockStepOutputs s := by
  unfold lockStepOutputs
  rw [hp, hc]

/-- Settles O51: one cycle of the atomic view for each message, and the next starts from the frame that it left. -/
theorem lockStepAnswersEveryMessage : Obligations.LockStepAnswersEveryMessage := by
  intro messages decoded s old hinv hs hw hi hold hfit hdecode
  induction messages generalizing decoded s old with
  | nil =>
    cases hdecode
    exact ⟨s, rfl, hw, hi, (List.append_nil _).symm⟩
  | cons message messages ih =>
    obtain ⟨hfit, hfits⟩ := List.forall_mem_cons.1 hfit
    cases hdecode with
    | cons hd hds =>
      have hcycle := cycleMatchesAtomicView s message (messages.flatMap cycleSlots) old hinv hs hw hfit hi hold
      rw [hd] at hcycle
      obtain ⟨t, ht, htframe, htref⟩ := hcycle
      have htp : t.params = s.params := (congrArg State.params htframe :)
      have htc : t.cfg = s.cfg := (congrArg State.cfg htframe :)
      have htn : t.n = s.n := (congrArg State.n htframe :)
      have htl : t.l = s.l := (congrArg State.l htframe :)
      have httrace : t.trace = s.trace ++ lockStepOutputs s [reconstruct s.cfg.delta s.n old _] := (congrArg State.trace htframe :)
      obtain ⟨u, hu, huw, hui, hutrace⟩ := ih _ t _ (runSteps_inv hinv ht) ((congrArg State.seq htframe :).trans hs)
        (by rw [htframe]; exact hw) (congrArg State.inputs htframe :) htref (by rw [htp]; exact hfits)
        (by rw [htp, htc, htl]; exact hds)
      refine ⟨u, ?_, huw, hui, ?_⟩
      · rw [List.length_cons, Nat.mul_succ, Nat.add_comm, runSteps_add _ _ _ _ ht, hu]
      · rw [hutrace, httrace, lockStepOutputs_congr htp htc, htc, htn, frameSequence, List.append_assoc, ← lockStepOutputs_cons]

end Sys2Proof.Machine
end

section
/-! The error codes and the block that does nothing (60_exceptions.md): the failure port, the waiting block, and the session that has
ended. -/

open Sys2Proof

namespace Sys2Proof.Machine

/-! ### The error codes (R190) -/

/-- The code 0 is left for no error (R190). -/
theorem errorCode_ne_zero (kind : ErrorKind) : errorCode kind ≠ 0 := by
  cases kind <;> decide

theorem State.takeError_failPort (s : State) (kind : ErrorKind) : (s.takeError kind).failPort = errorCode kind := rfl

/-- Settles O31: the table is the definition of `errorCode`, and the port shows the code of the error just taken. -/
theorem errorCodesAsTabled : Obligations.ErrorCodesAsTabled :=
  ⟨rfl, rfl, rfl, rfl, rfl, rfl, rfl, fun kind s => ⟨s.takeError_failPort kind, errorCode_ne_zero kind⟩⟩

/-! ### The waiting block (R200, R210) -/

/-- No internal step is enabled outside an active session (R200), nor while a frame is awaited (R210). -/
theorem selectInternal_waiting {s : State} (hw : s.status ≠ .active ∨ s.fsm = .awaitingFrame) : selectInternal s = none := by
  rcases hw with ha | hf
  · simp [selectInternal, ha]
  · simp [selectInternal, hf]

/-- Settles O41: where no internal step is enabled and no event comes, the step takes the slot and nothing else. -/
theorem waitingKeepsState : Obligations.WaitingKeepsState := by
  intro s hs hw hq
  rw [step_quiet hs hq, selectInternal_waiting hw]

/-! ### The session that has ended (R178, R201, R202) -/

/-- Without an active session and without a session start, a step takes a slot of the schedule and changes nothing else: a quiet
slot is waited out, and an event is ignored. -/
theorem step_inactive {s : State} (hs : s.seq = .idle) (ha : s.status ≠ .active)
    (hno : ∀ cfg rest, s.inputs ≠ .event (.sessionStart cfg) :: rest) : step s = .next { s with inputs := s.inputs.tail } := by
  match hi : s.inputs with
  | [] => rw [waitingKeepsState s hs (.inl ha) (.inl hi), hi]
  | .quiet :: rest => rw [waitingKeepsState s hs (.inl ha) (.inr ⟨rest, hi⟩), hi]
  | .event e :: rest =>
    have he : ∀ cfg, e ≠ .sessionStart cfg := fun cfg h => hno cfg rest (by rw [hi, h])
    rw [step_event hs hi, selectEvent_inactive ha he, List.tail_cons]

/-- Settles O42: by the invariant a terminated session stands between stages, so a step is that of `step_inactive`. -/
theorem terminationIsSticky : Obligations.TerminationIsSticky := by
  intro s t kind hinv hterm hno ht
  have ha : s.status ≠ .active := by simp [hterm]
  cases (step_inactive (hinv.idle ha) ha hno).symm.trans ht
  rfl

end Sys2Proof.Machine
end

section
/-! Reset and hazards (70_reset_and_hazards.md): the state after reset, and what a session fixes at its start. -/

open Sys2Proof

namespace Sys2Proof.Machine

/-! ### Reset (R230) -/

theorem State.reset_inactive : State.reset.status ≠ .active := by decide

/-- No memory lists a byte after reset (log entry 1). -/
theorem State.reset_mem (sp : Space) : State.reset.mem sp = [] := by cases sp <;> rfl

theorem spaceOk_of_mem_nil {sp : Space} {s : State} (h : s.mem sp = []) : SpaceOk sp s := by
  rw [SpaceOk, h]
  exact ⟨Memory.nil_wf _, List.forall_mem_nil _⟩

/-- Settles O43: without an active session no frame is awaited (R25). -/
theorem resetHasNoSession : Obligations.ResetHasNoSession :=
  ⟨rfl, rfl, State.awaitingFrame_eq_false_of_status State.reset_inactive⟩

/-- Settles O44: the sizes after reset are those of the zero configuration and the memories are empty; the rest of the invariant is
about sessions and stages, and there is none. -/
theorem resetMeetsInv : Obligations.ResetMeetsInv :=
  .of_inactive rfl rfl rfl (fun sp => spaceOk_of_mem_nil (State.reset_mem sp)) State.reset_inactive rfl

/-! ### What a session fixes at its start (R235) -/

/-- The implementation parameters, the configuration and the sizes, as one value. -/
def State.setup (s : State) : Params × SessionConfig × Nat × Nat × Nat := (s.params, s.cfg, s.n, s.m, s.l)

theorem State.setup_eq_iff {s t : State} :
    t.setup = s.setup ↔ t.params = s.params ∧ t.cfg = s.cfg ∧ t.n = s.n ∧ t.m = s.m ∧ t.l = s.l := by
  simp only [State.setup, Prod.mk.injEq]

/-- The decode stage leaves the setup alone, also on an error. -/
theorem DecodeFrame.setup_eq {s t : State} (h : DecodeFrame s t) : t.setup = s.setup := by
  cases h with
  | next h => exact (congrArg State.setup h :)
  | success h => exact (congrArg State.setup h :)
  | error _ h => exact (congrArg State.setup h :)

/-- Only an accepted session start writes the setup. -/
theorem StepFrame.setup_cases {s t : State} (h : StepFrame s t) :
    t.setup = s.setup ∨
      (s.seq = .idle ∧ ∃ cfg rest, s.inputs = .event (.sessionStart cfg) :: rest ∧ t = startSession cfg s.takeSlot) := by
  cases h with
  | decode h => exact .inl h.setup_eq
  | recon _ h => exact .inl (congrArg State.setup h :)
  | wait h => exact .inl (congrArg State.setup h :)
  | recv h => exact .inl (congrArg State.setup h :)
  | present _ _ _ _ _ _ h => exact .inl (congrArg State.setup h :)
  | ack _ _ _ _ h => exact .inl (congrArg State.setup h :)
  | start cfg rest hs hi h => exact .inr ⟨hs, cfg, rest, hi, h⟩
  | error _ h => exact .inl (congrArg State.setup h :)

/-- Settles O48: a step keeps the whole setup, or it starts a session, which keeps the parameters and takes the configuration from
the event. -/
theorem configurationFixedInSession : Obligations.ConfigurationFixedInSession := by
  intro s t h
  rcases (step_frame h).setup_cases with hsetup | ⟨hs, cfg, rest, hi, rfl⟩
  · obtain ⟨hparams, hsizes⟩ := State.setup_eq_iff.mp hsetup
    exact ⟨hparams, .inl hsizes⟩
  · exact ⟨startSession_params cfg s.takeSlot, .inr ⟨hs, cfg, rest, hi, startSession_cfg cfg _, startSession_status cfg _⟩⟩

end Sys2Proof.Machine
end
